-- ==== Sys2Proof/Word.lean ====
section
/-!
DEFINITION. The widths of the QDFS block: bytes of the event stream and of the medium, 32-bit values.
-/

namespace Sys2Proof

/-- One byte of the event stream (R59), of a response (R67) or of the medium (R40). -/
abbrev Byte := BitVec 8

/-- A 32-bit value as `get` and `put` move it (R43), as an operand carries it (R64, R65). -/
abbrev Word := BitVec 32

/-- The position accumulator's pattern: POS_W = 32 bits, two's complement (R24, R18). -/
abbrev Position := Word

/-- A frequency in Hz: FREQ_W = 32 bits, unsigned (R16, R29). -/
abbrev Freq := Word

end Sys2Proof
end

