-- ==== Sys2Proof/Config.lean ====
section
/-!
DEFINITION. What is fixed for one block and not changed by any event: the parameters the source fixes (R16), and
the TYPE of the parameters that the spec wants as arguments (R17, R18, R19). Their taken values are in
Machine/Defaults.lean; every State carries a Params, so a statement about every state holds for every value.
-/

namespace Sys2Proof

/-- N_SLOTS (R16): capacity of the frequency list and of the medium region, in entries. -/
def Config.nSlots : Nat := 9

/-- SLOT_BYTES (R16): bytes per entry on the medium. -/
def Config.slotBytes : Nat := 4

/-- REGION_BYTES (R16): bytes of the medium that FSTORE uses. -/
def Config.regionBytes : Nat := 36

/-- SENTINEL (R16, R42): the all-ones pattern that marks a slot empty or invalid. -/
def Config.sentinel : Word := 0xFFFFFFFF

/-- IDLE_TIE (R19, D11): what `IDLE` does when both cached levels are low. OPEN in the spec. -/
inductive IdleTie where
  /-- The original's later assignment stands: `CCW_1`. -/
  | ccwWins
  /-- First match wins: `CW_1`. -/
  | cwWins
  deriving DecidableEq, Repr

/-- GLITCH_GUARD (R19, D12): the guard of the glitch branch of `CW_1` and `CCW_1`. OPEN in the spec. -/
inductive GlitchGuard where
  /-- The leading line is high and the other line is high. -/
  | bothHigh
  /-- The leading line is high. -/
  | leadHigh
  deriving DecidableEq, Repr

/-- An identifier of a physical line (R26): opaque, no rule looks inside it. -/
structure PinId where
  number : Nat
  deriving DecidableEq, Repr

/-- The parameters a model takes as arguments (R17, R18, R19). No event reads or writes them as state;
`mediumSize` bounds the addresses that exist and is read by no event. -/
structure Params where
  idleTie      : IdleTie
  glitchGuard  : GlitchGuard
  minTuneFreq  : Freq
  maxTuneFreq  : Freq
  minInclusive : Bool
  maxInclusive : Bool
  default1     : Freq
  default2     : Freq
  mediumSize   : Nat
  deriving DecidableEq, Repr

end Sys2Proof
end

