-- ==== Sys2Proof/Syntax.lean ====
section
/-!
DEFINITION. The events of the block, one constructor per row of spec/opcode_table.json (R11, R62). The tenth kind of
R11, "reserved", is no event a model gives a meaning to: the decoder rejects it (R70).
-/

namespace Sys2Proof

/-- A logic level of a line: high is bit 1, low is bit 0 (00_scope.md section 7, D35). -/
inductive Level where
  | low
  | high
  deriving DecidableEq, Repr

/-- The event kinds with their operands (R11). -/
inductive Instr where
  /-- `ACTIVATE` (R78). -/
  | activate
  /-- `EDGE_A l` with the level sampled on line A (R80). -/
  | edgeA (l : Level)
  /-- `EDGE_B l` with the level sampled on line B (R81). -/
  | edgeB (l : Level)
  /-- `READ` (R95). -/
  | read
  /-- `WRITE n` (R96). -/
  | write (n : Position)
  /-- `INIT_MEDIUM` (R104). -/
  | initMedium
  /-- `STORE len, v[1..len]`; `len` is the length of the list (R106). -/
  | store (values : List Freq)
  /-- `RECALL` (R110). -/
  | recallFreqs
  /-- `RESET` (R137). -/
  | reset
  deriving DecidableEq, Repr

end Sys2Proof
end

