-- ==== Sys2Proof/WellFormed.lean ====
section
/-!
DEFINITION. Which event terms the spec's operands admit: a stored list has at most nine values (R29, R65).
-/

namespace Sys2Proof

/-- The term is an event of R11: `STORE` carries `len` in 0..9; every other operand is legal in full. -/
def Instr.wf : Instr → Bool
  | .store values => decide (values.length ≤ Config.nSlots)
  | .activate => true
  | .edgeA _ => true
  | .edgeB _ => true
  | .read => true
  | .write _ => true
  | .initMedium => true
  | .recallFreqs => true
  | .reset => true

end Sys2Proof
end

