-- ==== Sys2Proof/Decode.lean ====
section
/-!
DEFINITION. The event byte stream of 30_encoding.md: byte order, the opcode map, the decoder (total, rejecting by
name), then the encoder written from the same map.
-/

namespace Sys2Proof

/-- `le32(b0,b1,b2,b3)` (00_scope.md section 7; R47, R64): the first byte is the least significant. -/
def le32 (b0 b1 b2 b3 : Byte) : Word := b3 ++ b2 ++ b1 ++ b0

/-- The bytes of a 32-bit value in the order of R47: `v[7:0]`, `v[15:8]`, `v[23:16]`, `v[31:24]`. -/
def leBytes (v : Word) : List Byte :=
  [v.extractLsb' 0 8, v.extractLsb' 8 8, v.extractLsb' 16 8, v.extractLsb' 24 8]

/-- The assigned opcodes (R62). -/
inductive Opcode where
  | activate | edgeA | edgeB | read | write | initMedium | store | recallFreqs | reset
  deriving DecidableEq, Repr

/-- The four formats (R60). -/
inductive Format where
  | z | e | w | l
  deriving DecidableEq, Repr

/-- The opcode value of each event, byte 0 bits [7:4] (R62). -/
def Opcode.code : Opcode → BitVec 4
  | .activate   => 0b0001
  | .edgeA      => 0b0010
  | .edgeB      => 0b0011
  | .read       => 0b0100
  | .write      => 0b0101
  | .initMedium => 0b1000
  | .store      => 0b1001
  | .recallFreqs     => 0b1010
  | .reset      => 0b1111

/-- The format of each event (R62). -/
def Opcode.format : Opcode → Format
  | .activate | .read | .initMedium | .recallFreqs | .reset => .z
  | .edgeA | .edgeB => .e
  | .write => .w
  | .store => .l

/-- The map of R62 in its own order. -/
def opcodeMap : List Opcode :=
  [.activate, .edgeA, .edgeB, .read, .write, .initMedium, .store, .recallFreqs, .reset]

/-- The event an opcode value selects; none for the seven unassigned values (R62). -/
def opcodeOf (opc : BitVec 4) : Option Opcode := opcodeMap.find? (fun o => o.code == opc)

/-- `opc` = byte 0 bits [7:4] (R61). -/
def opcField (b : Byte) : BitVec 4 := b.extractLsb' 4 4

/-- `sub` = byte 0 bits [3:0] (R61); in `STORE`'s byte 1 the same place holds `len` (R65). -/
def lowNibble (b : Byte) : BitVec 4 := b.extractLsb' 0 4

/-- The level a bit stands for: 1 high, 0 low (R63). -/
def levelOfBit (b : Bool) : Level := if b then .high else .low

/-- The bit of a level (R63). -/
def Level.bit : Level → BitVec 4
  | .low => 0
  | .high => 1

/-- The must-be-zero bits of byte 0 are zero (R61, R69): `sub[3:1]` in format E, all of `sub` in the others. -/
def subLegal (f : Format) (sub : BitVec 4) : Bool :=
  match f with
  | .e => sub.extractLsb' 1 3 == 0
  | .z | .w | .l => sub == 0

/-- Why a stream's head is a reserved encoding (R70). -/
inductive Reject where
  /-- R70 (a): byte 0 with an unassigned opcode. -/
  | unassignedOpcode
  /-- R70 (b): an assigned opcode with a must-be-zero bit of byte 0 set. -/
  | mustBeZero
  /-- R70 (c): `STORE` with `len` in 10..15 or byte 1 bits [7:4] nonzero. -/
  | reservedLength
  /-- R70 (d): the stream ends inside the event. -/
  | truncated
  deriving DecidableEq, Repr

/-- What the decoder reads from the head of a stream. -/
inductive Decoded where
  /-- An event, and the bytes after it. -/
  | event (i : Instr) (rest : List Byte)
  /-- A reserved encoding. -/
  | rejected (why : Reject)
  deriving DecidableEq, Repr

/-- `n` values of four bytes each, least significant byte first, and the bytes after them (R65). -/
def takeWords : Nat → List Byte → Option (List Word × List Byte)
  | 0, bs => some ([], bs)
  | n + 1, b0 :: b1 :: b2 :: b3 :: bs =>
    match takeWords n bs with
    | some (vs, rest) => some (le32 b0 b1 b2 b3 :: vs, rest)
    | none => none
  | _ + 1, _ => none

/-- Format W after byte 0: the operand `n` (R64). -/
def decodeWrite (bs : List Byte) : Decoded :=
  match bs with
  | b1 :: b2 :: b3 :: b4 :: rest => .event (.write (le32 b1 b2 b3 b4)) rest
  | _ => .rejected .truncated

/-- Format L after byte 0: the length byte, then `len` values (R65, R70 (c), R70 (d)). -/
def decodeStore (bs : List Byte) : Decoded :=
  match bs with
  | [] => .rejected .truncated
  | b1 :: rest =>
    if opcField b1 = 0 ∧ (lowNibble b1).toNat ≤ Config.nSlots then
      match takeWords (lowNibble b1).toNat rest with
      | some (vs, rest') => .event (.store vs) rest'
      | none => .rejected .truncated
    else .rejected .reservedLength

/-- The event of an assigned opcode from its `sub` field and the bytes after byte 0 (R60). -/
def decodeOperands (o : Opcode) (sub : BitVec 4) (bs : List Byte) : Decoded :=
  match o with
  | .activate   => .event .activate bs
  | .edgeA      => .event (.edgeA (levelOfBit (sub.getLsbD 0))) bs
  | .edgeB      => .event (.edgeB (levelOfBit (sub.getLsbD 0))) bs
  | .read       => .event .read bs
  | .write      => decodeWrite bs
  | .initMedium => .event .initMedium bs
  | .store      => decodeStore bs
  | .recallFreqs     => .event .recallFreqs bs
  | .reset      => .event .reset bs

/-- The decoder (R66): byte 0, its row in R62, the rest by the format. -/
def decode (bs : List Byte) : Decoded :=
  match bs with
  | [] => .rejected .truncated
  | b0 :: rest =>
    match opcodeOf (opcField b0) with
    | none => .rejected .unassignedOpcode
    | some o =>
      if subLegal o.format (lowNibble b0) then decodeOperands o (lowNibble b0) rest
      else .rejected .mustBeZero

/-- The length of an event from its first one or two bytes (R66); none where byte 0 selects no event or `STORE`'s
length byte is missing. -/
def eventLength (bs : List Byte) : Option Nat :=
  match bs with
  | [] => none
  | b0 :: rest =>
    match opcodeOf (opcField b0) with
    | none => none
    | some o =>
      match o.format with
      | .z | .e => some 1
      | .w => some 5
      | .l =>
        match rest with
        | [] => none
        | b1 :: _ => some (2 + 4 * (lowNibble b1).toNat)

/-- The opcode an event is sent under (R62). -/
def Instr.opcode : Instr → Opcode
  | .activate   => .activate
  | .edgeA _    => .edgeA
  | .edgeB _    => .edgeB
  | .read       => .read
  | .write _    => .write
  | .initMedium => .initMedium
  | .store _    => .store
  | .recallFreqs     => .recallFreqs
  | .reset      => .reset

/-- The `sub` field an event is sent with (R61): the level in format E, zero in the others. -/
def Instr.sub : Instr → BitVec 4
  | .edgeA l | .edgeB l => l.bit
  | .activate | .read | .write _ | .initMedium | .store _ | .recallFreqs | .reset => 0

/-- The operand bytes after byte 0 (R60, R64, R65). -/
def Instr.operandBytes : Instr → List Byte
  | .write n => leBytes n
  | .store values => ((0 : BitVec 4) ++ BitVec.ofNat 4 values.length) :: values.flatMap leBytes
  | .activate | .edgeA _ | .edgeB _ | .read | .initMedium | .recallFreqs | .reset => []

/-- The bytes of an event (R60): byte 0 = `{opc, sub}`, then its operand bytes. -/
def encode (i : Instr) : List Byte := (i.opcode.code ++ i.sub) :: i.operandBytes

/-- A trace as one byte stream, its events one after the other (R59). -/
def encodeTrace (es : List Instr) : List Byte := es.flatMap encode

/-- The length R66 gives an event, by its format. -/
def Instr.byteLength : Instr → Nat
  | .write _ => 5
  | .store values => 2 + 4 * values.length
  | .activate | .edgeA _ | .edgeB _ | .read | .initMedium | .recallFreqs | .reset => 1

/-- The longest event: `STORE` of nine values (R66). -/
def maxEventBytes : Nat := 38

/-- The first `k` bytes of the number `w`, its least significant byte first in the stream. -/
def bytesOfNat : Nat → Nat → List Byte
  | 0, _ => []
  | k + 1, w => BitVec.ofNat 8 w :: bytesOfNat k (w / 256)

/-- An opcode-table word of `nbits` bits laid out as the stream's bytes, zero above `nbits`, as many bytes as the
longest event has: bit 0 is bit 0 of byte 0, byte 1 is bits 15..8. -/
def tableBytes (nbits w : Nat) : List Byte := bytesOfNat maxEventBytes (w % 2 ^ nbits)

/-- The same layout cut to the event's own length where byte 0 selects an event. -/
def eventBytes (nbits w : Nat) : List Byte :=
  match eventLength (tableBytes nbits w) with
  | some n => (tableBytes nbits w).take n
  | none => tableBytes nbits w

/-- The instruction the decoder reads from a word numbered as spec/opcode_table.json numbers it. -/
def decodeTableWord (nbits w : Nat) : Option Instr :=
  match decode (tableBytes nbits w) with
  | .event i _ => some i
  | .rejected _ => none

end Sys2Proof
end

