-- ==== Sys2Proof/Machine/Defaults.lean ====
section
/-!
DEFINITION. The values the spec takes for its parameters (R17, R18, R19) and the values RESET leaves (R38, R137).
-/

namespace Sys2Proof.Machine

/-- The parameters as the spec takes them: R17's figures in Hz with both limits included (D17, D18), R18's medium
size (D23), R19's defaults of the two OPEN parameters (D11, D12). -/
def Defaults.params : Params where
  idleTie      := .ccwWins
  glitchGuard  := .bothHigh
  minTuneFreq  := 143500000
  maxTuneFreq  := 146500000
  minInclusive := true
  maxInclusive := true
  default1     := 144710000
  default2     := 145000000
  mediumSize   := 36

/-- PIN_A (R26): the spec gives no value. DESIGN CHOICE 0, log entry 6; nothing reads it. -/
def Defaults.pinA : PinId := ⟨0⟩

/-- PIN_B (R26): the spec gives no value but `PIN_A != PIN_B`. DESIGN CHOICE 1, log entry 6; nothing reads it. -/
def Defaults.pinB : PinId := ⟨1⟩

/-- The cached levels after RESET (R38, D7). -/
def Defaults.level : Level := .high

/-- `pos` after RESET (R38, D6). -/
def Defaults.pos : Position := 0

/-- `armed` after RESET (R38, D9). -/
def Defaults.armed : Bool := false

/-- `med_ready` after RESET (R38, D19). -/
def Defaults.medReady : Bool := false

end Sys2Proof.Machine
end

