-- ==== Sys2Proof/Machine/State.lean ====
section
/-!
DEFINITION. The state of the block and of what it is wired to (R20, R14), as plain data; the reasons a step can stop;
the state after RESET.
-/

namespace Sys2Proof.Machine

/-- The direction state (R23). The pattern `111` is no state (R37), so there is no eighth constructor. -/
inductive DState where
  | idle | cw1 | cw2 | cw3 | ccw1 | ccw2 | ccw3
  deriving DecidableEq, Repr

/-- The medium's bytes as (offset, byte) pairs: offsets strictly rising, no entry equal to what an unlisted offset
reads as (Machine/Memory.lean). -/
abbrev Memory := List Host.Cell

/-- A response on the response port (R67). -/
inductive Response where
  /-- `READ`'s response: the value of `pos`. -/
  | position (p : Position)
  /-- `RECALL`'s response: `out[1..count]`; `count` is the length of the list. -/
  | frequencies (values : List Freq)
  deriving DecidableEq, Repr

/-- One operation on the medium port (R14, R43). -/
inductive MediumOp where
  | get (off : Nat)
  | put (off : Nat) (v : Word)
  | commit
  deriving DecidableEq, Repr

/-- The state. The first eight fields and the parameters are the spec's (R20 to R27, R16 to R19, R39, R46); the last
three are the model's own view of the block's ports (log entries 1, 2, 3). -/
structure State where
  /-- `lvl_a` (R21). -/
  lvlA       : Level
  /-- `lvl_b` (R22). -/
  lvlB       : Level
  /-- `dstate` (R23). -/
  dstate     : DState
  /-- `pos` (R24). -/
  pos        : Position
  /-- `armed` (R25). -/
  armed      : Bool
  /-- `med_ready` (R27). -/
  medReady   : Bool
  /-- `PIN_A` (R26). -/
  pinA       : PinId
  /-- `PIN_B` (R26). -/
  pinB       : PinId
  /-- The parameters of this block (R17, R18, R19); no event changes them. -/
  params     : Params
  /-- The medium as `get` sees it (R40, R44); MED_INIT (R42) is its value when a run starts. -/
  medium     : Memory
  /-- The medium as power loss would leave it: what the last commit made durable (R46). -/
  durable    : Memory
  /-- The bytes of the event stream not yet taken (R59). -/
  input      : List Byte
  /-- The responses put on the response port, oldest first (R13, R67). -/
  responses  : List Response
  /-- The operations issued on the medium port, oldest first (R14, R108, R110). -/
  mediumPort : List MediumOp
  deriving DecidableEq, Repr

/-- The block has no fault outcome: it has "no error paths" (R13, R117). There is no constructor, so no step can
answer a fault: nobody raises one. -/
inductive Fault where
  deriving DecidableEq, Repr

/-- Why a run is refused: the spec gives it no meaning from there on (93_implementation_defined.md, "What `refuse`
means here"). Every one is safe: the model stops where the spec makes no statement. -/
inductive Refusal where
  /-- Raised by exec's arm of an instruction without a meaning; no arm of this model raises it. Safe. -/
  | notModelled (mnemonic : String)
  /-- Raised by step: byte 0 with an unassigned opcode (R70 (a), U10). Safe. -/
  | unassignedOpcode
  /-- Raised by step: a must-be-zero bit of byte 0 is set (R69, R70 (b), U10). Safe. -/
  | mustBeZeroBitSet
  /-- Raised by step: `STORE` with `len` in 10..15 or byte 1 bits [7:4] nonzero (R70 (c), U10). Safe. -/
  | reservedStoreLength
  /-- Raised by step: the stream ends inside an event (R70 (d), U10). Safe. -/
  | truncatedEvent
  /-- Raised by `ACTIVATE` with `armed = 1` (R78, U2). Safe. -/
  | repeatedActivate
  /-- Raised by `STORE` and `RECALL` with `med_ready = 0` (R103, U3). Safe. -/
  | mediumNotReady
  deriving DecidableEq, Repr

/-- The state every run starts in (R137, R38): the reset values, the parameters as the spec takes them (log entries 4,
5), a fresh medium (R42, log entries 7, 8), no event waiting and nothing yet on the two output ports (log entries 1, 2,
3). -/
def State.reset : State where
  lvlA       := Defaults.level
  lvlB       := Defaults.level
  dstate     := .idle
  pos        := Defaults.pos
  armed      := Defaults.armed
  medReady   := Defaults.medReady
  pinA       := Defaults.pinA
  pinB       := Defaults.pinB
  params     := Defaults.params
  medium     := []
  durable    := []
  input      := []
  responses  := []
  mediumPort := []

end Sys2Proof.Machine
end

