-- ==== Sys2Proof/Machine/Memory.lean ====
section
/-!
DEFINITION. The medium as bytes: the canonical list, its read and write of one byte, and the 32-bit values of the nine
slots in the byte order of R47.
-/

namespace Sys2Proof.Machine

/-- What an offset that no entry lists holds: `0xFF`, the byte of a medium nothing was ever stored on (R42, D24). -/
def unlistedByte : Byte := 0xFF

/-- The byte at an offset. -/
def Memory.read (m : Memory) (a : Nat) : Byte :=
  match m with
  | [] => unlistedByte
  | (k, v) :: rest => if k = a then v else Memory.read rest a

/-- Put one byte at an offset, keeping the canonical form: an unlisted value's entry is removed. -/
def Memory.write (m : Memory) (a : Nat) (v : Byte) : Memory :=
  match m with
  | [] => if v = unlistedByte then [] else [(a, v)]
  | (k, w) :: rest =>
    if a < k then
      if v = unlistedByte then (k, w) :: rest else (a, v) :: (k, w) :: rest
    else if a = k then
      if v = unlistedByte then rest else (a, v) :: rest
    else (k, w) :: Memory.write rest a v

/-- Every offset of the list is above `lo`. -/
def Memory.above (m : Memory) (lo : Nat) : Bool := m.all fun c => decide (lo < c.1)

/-- The canonical form: offsets strictly rising, no entry equal to the unlisted byte. -/
def Memory.wf (m : Memory) : Bool :=
  match m with
  | [] => true
  | (k, v) :: rest => decide (v ≠ unlistedByte) && Memory.above rest k && Memory.wf rest

/-- Every listed offset is on a medium of `size` bytes (R40). -/
def Memory.within (m : Memory) (size : Nat) : Bool := m.all fun c => decide (c.1 < size)

/-- Slot `i`, for `i` in 1..9, starts at byte offset `(i-1)*4` (R41). -/
def slotOffset (i : Nat) : Nat := (i - 1) * Config.slotBytes

/-- The 32-bit value in the four bytes at an offset (R44, R47). -/
def Memory.read32 (m : Memory) (off : Nat) : Word :=
  le32 (Memory.read m off) (Memory.read m (off + 1)) (Memory.read m (off + 2)) (Memory.read m (off + 3))

/-- Put the bytes of a list at consecutive offsets. -/
def Memory.writeBytes (m : Memory) (off : Nat) (bs : List Byte) : Memory :=
  match bs with
  | [] => m
  | b :: rest => Memory.writeBytes (Memory.write m off b) (off + 1) rest

/-- Replace the four bytes at an offset by the bytes of a value (R45, R47). -/
def Memory.write32 (m : Memory) (off : Nat) (v : Word) : Memory := Memory.writeBytes m off (leBytes v)

/-- The value slot `i` holds. -/
def Memory.slot (m : Memory) (i : Nat) : Word := Memory.read32 m (slotOffset i)

end Sys2Proof.Machine
end

