-- ==== Sys2Proof/Machine/Operands.lean ====
section
/-!
DEFINITION. What the events compute from their operands: the step of `pos` by one (R85, R88, D5), the validity
predicate of a frequency (R100), the valid prefix of a list (R102).
-/

namespace Sys2Proof.Machine

/-- `wrap_32(i)`: the signed 32-bit value congruent to `i` modulo 2^32 (00_scope.md section 7). -/
def wrap32 (i : Int) : Position := BitVec.ofInt 32 i

/-- `wrap_32(p + 1)` (R85). -/
def posInc (p : Position) : Position := wrap32 (p.toInt + 1)

/-- `wrap_32(p - 1)` (R88). -/
def posDec (p : Position) : Position := wrap32 (p.toInt - 1)

/-- The lower limit of the band, included or not (R17, R100); the comparison is unsigned. -/
def aboveMinimum (c : Params) (v : Freq) : Bool :=
  if c.minInclusive then decide (c.minTuneFreq.toNat ≤ v.toNat) else decide (c.minTuneFreq.toNat < v.toNat)

/-- The upper limit of the band, included or not (R17, R100). -/
def belowMaximum (c : Params) (v : Freq) : Bool :=
  if c.maxInclusive then decide (v.toNat ≤ c.maxTuneFreq.toNat) else decide (v.toNat < c.maxTuneFreq.toNat)

/-- `Valid(v)` (R100). -/
def valid (c : Params) (v : Freq) : Bool := aboveMinimum c v && belowMaximum c v

/-- The valid prefix of an operand list, at most nine values: R106's `v[1..k]`. -/
def validPrefix (c : Params) (values : List Freq) : List Freq := (values.take Config.nSlots).takeWhile (valid c)

/-- The values of slots `i`, `i+1`, ... , `n` of them. -/
def slotsFrom (m : Memory) : Nat → Nat → List Word
  | 0, _ => []
  | n + 1, i => Memory.slot m i :: slotsFrom m n (i + 1)

/-- The valid prefix of the medium: R110's `slot 1, ..., slot m`. -/
def mediumPrefix (c : Params) (m : Memory) : List Freq := (slotsFrom m Config.nSlots 1).takeWhile (valid c)

/-- `RECALL`'s values for a valid prefix: the prefix, or the two compatibility defaults where it is empty
(R110, R111). -/
def recallValues (c : Params) (found : List Freq) : List Freq :=
  match found with
  | [] => [c.default1, c.default2]
  | v :: rest => v :: rest

/-- The puts of a list of values into slots `i`, `i+1`, ... in ascending order (R108). -/
def putsFrom : Nat → List Freq → List MediumOp
  | _, [] => []
  | i, v :: rest => .put (slotOffset i) v :: putsFrom (i + 1) rest

/-- The gets of `n` slots from slot `i` in ascending order (R110). -/
def getsFrom : Nat → Nat → List MediumOp
  | _, 0 => []
  | i, n + 1 => .get (slotOffset i) :: getsFrom (i + 1) n

/-- What the spec's figures satisfy and R101, R111, R40 rest on: the sentinel is invalid, both defaults are valid, the
medium has room for the region. -/
def paramsLegal (c : Params) : Bool :=
  !valid c Config.sentinel && valid c c.default1 && valid c c.default2 && decide (Config.regionBytes ≤ c.mediumSize)

end Sys2Proof.Machine
end

