-- ==== Sys2Proof/Machine/Flags.lean ====
section
/-!
DEFINITION. The block has no arithmetic flags (R32). Its two status flags are `armed` and `med_ready`; here are the
gates they hold (R25, R27), and the three-bit pattern of the direction state (R23, R74).
-/

namespace Sys2Proof.Machine

/-- `armed` gates the edge events: while it is 0 nothing changes (R25, R80, R81). -/
def whenArmed (s : State) (handled : State) : State := if s.armed then handled else s

/-- `med_ready` gates the medium events: while it is 0 they are refused (R27, R103). -/
def whenReady (s : State) (done : State) : Host.Outcome State Fault Refusal :=
  if s.medReady then .next done else .refused .mediumNotReady

/-- The pattern of a direction state (R23). -/
def DState.code : DState → BitVec 3
  | .idle => 0b000
  | .cw1  => 0b001
  | .cw2  => 0b010
  | .cw3  => 0b011
  | .ccw1 => 0b100
  | .ccw2 => 0b101
  | .ccw3 => 0b110

/-- The direction state of a pattern; `111` is none (R23, R37). -/
def dstateOfCode (c : BitVec 3) : Option DState :=
  [DState.idle, .cw1, .cw2, .cw3, .ccw1, .ccw2, .ccw3].find? fun d => d.code == c

end Sys2Proof.Machine
end

