-- ==== Sys2Proof/Machine/Classify.lean ====
section
/-!
DEFINITION. The classifier (R82 to R91): one definition per state, each a table over the pair of cached levels
(line A, line B), then the dispatch. A result is the new direction state and the new `pos`.
-/

namespace Sys2Proof.Machine

/-- `IDLE` (R84); at (low, low) the OPEN parameter IDLE_TIE decides. -/
def classifyIdle (c : Params) (a b : Level) (p : Position) : DState × Position :=
  match a, b with
  | .high, .high => (.idle, p)
  | .high, .low  => (.cw1, p)
  | .low,  .high => (.ccw1, p)
  | .low,  .low  =>
    match c.idleTie with
    | .ccwWins => (.ccw1, p)
    | .cwWins  => (.cw1, p)

/-- `CW_1` (R85); at (low, high) the OPEN parameter GLITCH_GUARD decides. -/
def classifyCw1 (c : Params) (a b : Level) (p : Position) : DState × Position :=
  match a, b with
  | .low,  .low  => (.cw2, posInc p)
  | .high, .high => (.idle, p)
  | .high, .low  => (.cw1, p)
  | .low,  .high =>
    match c.glitchGuard with
    | .bothHigh => (.cw1, p)
    | .leadHigh => (.idle, p)

/-- `CW_2` (R86): line B alone. -/
def classifyCw2 (b : Level) (p : Position) : DState × Position :=
  match b with
  | .high => (.cw3, p)
  | .low  => (.cw2, p)

/-- `CW_3` (R87): line A alone. -/
def classifyCw3 (a : Level) (p : Position) : DState × Position :=
  match a with
  | .high => (.idle, p)
  | .low  => (.cw3, p)

/-- `CCW_1` (R88); at (high, low) the OPEN parameter GLITCH_GUARD decides. -/
def classifyCcw1 (c : Params) (a b : Level) (p : Position) : DState × Position :=
  match a, b with
  | .low,  .low  => (.ccw2, posDec p)
  | .high, .high => (.idle, p)
  | .low,  .high => (.ccw1, p)
  | .high, .low  =>
    match c.glitchGuard with
    | .bothHigh => (.ccw1, p)
    | .leadHigh => (.idle, p)

/-- `CCW_2` (R89): line A alone. -/
def classifyCcw2 (a : Level) (p : Position) : DState × Position :=
  match a with
  | .high => (.ccw3, p)
  | .low  => (.ccw2, p)

/-- `CCW_3` (R90): line B alone. -/
def classifyCcw3 (b : Level) (p : Position) : DState × Position :=
  match b with
  | .high => (.idle, p)
  | .low  => (.ccw3, p)

/-- `Classify(s, a, b, p)` (R83): the guards of exactly the state held are evaluated, once (R82); where none matches
the state and `pos` are held (R91). -/
def classify (c : Params) (d : DState) (a b : Level) (p : Position) : DState × Position :=
  match d with
  | .idle => classifyIdle c a b p
  | .cw1  => classifyCw1 c a b p
  | .cw2  => classifyCw2 b p
  | .cw3  => classifyCw3 a p
  | .ccw1 => classifyCcw1 c a b p
  | .ccw2 => classifyCcw2 a p
  | .ccw3 => classifyCcw3 b p

end Sys2Proof.Machine
end

