-- ==== Sys2Proof/Machine/Ops.lean ====
section
/-!
DEFINITION. The named operations the meanings are built from: writes of the QDEC elements, handler entry (R127), the
response port (R67), the medium's three primitives (R43 to R46), the loops of `STORE` and `RECALL` (R106, R110), RESET.
-/

namespace Sys2Proof.Machine

/-- The two lines (R15). -/
inductive Line where
  | a
  | b
  deriving DecidableEq, Repr

/-- Write a line's own cached level (R80, R81). -/
def State.withLevel (s : State) (line : Line) (l : Level) : State :=
  match line with
  | .a => { s with lvlA := l }
  | .b => { s with lvlB := l }

/-- Write what the classifier returns (R80, R81). -/
def State.withClassified (s : State) (r : DState × Position) : State := { s with dstate := r.1, pos := r.2 }

/-- Write `pos` (R96). -/
def State.withPos (s : State) (n : Position) : State := { s with pos := n }

/-- Set `armed` (R78). -/
def State.arm (s : State) : State := { s with armed := true }

/-- Set `med_ready` (R104). -/
def State.ready (s : State) : State := { s with medReady := true }

/-- Put a response on the response port, after those before it (R67). -/
def State.respond (s : State) (r : Response) : State := { s with responses := s.responses ++ [r] }

/-- The bytes of a response (R67). -/
def Response.bytes : Response → List Byte
  | .position p => leBytes p
  | .frequencies values => BitVec.ofNat 8 values.length :: values.flatMap leBytes

/-- One evaluation of the classifier on the pair of cached levels as they stand (R82). -/
def classifyOnce (s : State) : State := s.withClassified (classify s.params s.dstate s.lvlA s.lvlB s.pos)

/-- What the block does when a line's handler is entered (R127): the sampled level is written to the line's cached
level, then the classifier runs once. It saves no state and changes no mode and no mask, and the handler's return
restores nothing (R128), so this is entry and return in one. -/
def handlerEntry (line : Line) (l : Level) (s : State) : State := classifyOnce (s.withLevel line l)

/-- An edge event: the handler is entered where interrupt delivery is enabled (R80, R81, R122). -/
def deliverEdge (line : Line) (l : Level) (s : State) : State := whenArmed s (handlerEntry line l s)

/-- `MedGet(off)` (R44): the value, and the operation on the medium port; nothing else changes. -/
def State.medGet (s : State) (off : Nat) : Word × State :=
  (Memory.read32 s.medium off, { s with mediumPort := s.mediumPort ++ [.get off] })

/-- `MedPut(off, v)` (R45): visible to `get` at once, durable only after a commit. -/
def State.medPut (s : State) (off : Nat) (v : Word) : State :=
  { s with medium := Memory.write32 s.medium off v, mediumPort := s.mediumPort ++ [.put off v] }

/-- `MedCommit()` (R46): every put before it becomes durable; no value that `get` sees changes. -/
def State.medCommit (s : State) : State :=
  { s with durable := s.medium, mediumPort := s.mediumPort ++ [.commit] }

/-- `STORE`'s loop from slot `i` over `n` more slots (R106): a valid value is put, the first invalid or missing entry
puts the sentinel and ends the loop. -/
def storeLoop : Nat → Nat → List Freq → State → State
  | 0, _, _, s => s
  | _ + 1, i, [], s => s.medPut (slotOffset i) Config.sentinel
  | n + 1, i, v :: rest, s =>
    if valid s.params v then storeLoop n (i + 1) rest (s.medPut (slotOffset i) v)
    else s.medPut (slotOffset i) Config.sentinel

/-- `STORE` past its gate: the loop over slots 1..9, then one commit, whether or not the loop ended early (R106). -/
def storeList (values : List Freq) (s : State) : State := (storeLoop Config.nSlots 1 values s).medCommit

/-- `RECALL`'s loop from slot `i` over `n` more slots (R110): the values before the first invalid read, and the state
after the gets. -/
def recallLoop : Nat → Nat → State → List Freq × State
  | 0, _, s => ([], s)
  | n + 1, i, s =>
    let (x, s1) := s.medGet (slotOffset i)
    if valid s.params x then
      let (out, s2) := recallLoop n (i + 1) s1
      (x :: out, s2)
    else ([], s1)

/-- `RECALL` past its gate: the loop over slots 1..9, then the response (R110, R111). -/
def recallList (s : State) : State :=
  let (found, s1) := recallLoop Config.nSlots 1 s
  s1.respond (.frequencies (recallValues s1.params found))

/-- RESET (R137): the six elements take their reset values; the pins, the parameters and the medium are unchanged. -/
def resetBlock (s : State) : State :=
  { s with
    dstate := .idle
    pos := Defaults.pos
    lvlA := Defaults.level
    lvlB := Defaults.level
    armed := Defaults.armed
    medReady := Defaults.medReady }

end Sys2Proof.Machine
end

