-- ==== Sys2Proof/Machine/Environment.lean ====
section
/-!
DEFINITION. The meaning of the environment's event (70_reset_and_hazards.md).
-/

namespace Sys2Proof.Machine

/-- `RESET` (R137): construction and power cycle. -/
def execReset (s : State) : Host.Outcome State Fault Refusal := .next (resetBlock s)

end Sys2Proof.Machine
end

