-- ==== Sys2Proof/Machine/Fstore.lean ====
section
/-!
DEFINITION. The meanings of the FSTORE events (41_fstore.md).
-/

namespace Sys2Proof.Machine

/-- `INIT_MEDIUM` (R104): no medium byte changes (R105); repeated, it changes nothing. -/
def execInitMedium (s : State) : Host.Outcome State Fault Refusal := .next s.ready

/-- `STORE len, v[1..len]` (R106); refused while the medium is not ready (R103). -/
def execStore (values : List Freq) (s : State) : Host.Outcome State Fault Refusal := whenReady s (storeList values s)

/-- `RECALL` (R110); refused while the medium is not ready (R103). -/
def execRecall (s : State) : Host.Outcome State Fault Refusal := whenReady s (recallList s)

end Sys2Proof.Machine
end

