-- ==== Sys2Proof/Machine/Qdec.lean ====
section
/-!
DEFINITION. The meanings of the QDEC events (40_qdec.md). `READ` and `WRITE` run in a critical section that masks both
edge strobes; as each is one atomic event the mask is set and restored within it and leaves nothing behind (R34, R54).
-/

namespace Sys2Proof.Machine

/-- `ACTIVATE` (R78): arms the block; a second one since RESET is refused (U2). -/
def execActivate (s : State) : Host.Outcome State Fault Refusal :=
  if s.armed then .refused .repeatedActivate else .next s.arm

/-- `EDGE_A l` (R80). -/
def execEdgeA (l : Level) (s : State) : Host.Outcome State Fault Refusal := .next (deliverEdge .a l s)

/-- `EDGE_B l` (R81). -/
def execEdgeB (l : Level) (s : State) : Host.Outcome State Fault Refusal := .next (deliverEdge .b l s)

/-- `READ` (R95). -/
def execRead (s : State) : Host.Outcome State Fault Refusal := .next (s.respond (.position s.pos))

/-- `WRITE n` (R96). -/
def execWrite (n : Position) (s : State) : Host.Outcome State Fault Refusal := .next (s.withPos n)

end Sys2Proof.Machine
end

