-- ==== Sys2Proof/Machine/Dispatch.lean ====
section
/-!
DEFINITION. One arm per event.
-/

namespace Sys2Proof.Machine

def exec (i : Instr) (s : State) : Host.Outcome State Fault Refusal :=
  match i with
  | .activate => Sys2Proof.Machine.execActivate s
  | .edgeA l => Sys2Proof.Machine.execEdgeA l s
  | .edgeB l => Sys2Proof.Machine.execEdgeB l s
  | .read => Sys2Proof.Machine.execRead s
  | .write n => Sys2Proof.Machine.execWrite n s
  | .initMedium => Sys2Proof.Machine.execInitMedium s
  | .store values => Sys2Proof.Machine.execStore values s
  | .recallFreqs => Sys2Proof.Machine.execRecall s
  | .reset => Sys2Proof.Machine.execReset s

end Sys2Proof.Machine
end

