-- ==== Sys2Proof/Machine/Fetch.lean ====
section
/-!
DEFINITION. Taking the next event from the event stream (R59, R66, R70).
-/

namespace Sys2Proof.Machine

/-- What the head of the event stream holds. -/
inductive Fetched where
  /-- No event is there: the block waits (R13, R139). -/
  | nothing
  /-- An event, and the state with its bytes taken from the stream. -/
  | event (i : Instr) (s : State)
  /-- A reserved encoding (R70). -/
  | reserved (why : Refusal)
  deriving DecidableEq, Repr

/-- The state with another rest of the event stream. -/
def State.withInput (s : State) (bs : List Byte) : State := { s with input := bs }

/-- The refusal each kind of reserved encoding leads to (R70, U10). -/
def refusalOf : Reject → Refusal
  | .unassignedOpcode => .unassignedOpcode
  | .mustBeZero       => .mustBeZeroBitSet
  | .reservedLength   => .reservedStoreLength
  | .truncated        => .truncatedEvent

/-- Take the next event. -/
def fetch (s : State) : Fetched :=
  match s.input with
  | [] => .nothing
  | b :: bs =>
    match decode (b :: bs) with
    | .event i rest => .event i (s.withInput rest)
    | .rejected why => .reserved (refusalOf why)

/-- The state with an opcode-table word's bytes put in front of the event stream. -/
def putNextEvent (s : State) (nbits w : Nat) : State := s.withInput (eventBytes nbits w ++ s.input)

end Sys2Proof.Machine
end

