-- ==== Sys2Proof/Machine/Step.lean ====
section
/-!
DEFINITION. One step: the next event of the stream, applied by its rule (R10); a step that finds no event changes
nothing (R13).
-/

namespace Sys2Proof.Machine

/-- One step of a run. -/
def step (s : State) : Host.Outcome State Fault Refusal :=
  match fetch s with
  | .nothing => .next s
  | .event i s1 => exec i s1
  | .reserved why => .refused why

/-- `s` with an opcode-table word as the next event of its stream. -/
def State.withFetchWord (s : State) (nbits w : Nat) : State := putNextEvent s nbits w

end Sys2Proof.Machine
end

