-- ==== Sys2Proof/Machine/Trace.lean ====
section
/-!
DEFINITION. Runs: a list of events applied in its total order (R10, R68), steps of the event stream, who issues an event
(R9, R130), interleavings (R12), the pseudo-events (R73).
-/

namespace Sys2Proof.Machine

/-- Go on with `f` from a next state; a fault or a refusal ends the run. -/
def andThen (o : Host.Outcome State Fault Refusal) (f : State → Host.Outcome State Fault Refusal) :
    Host.Outcome State Fault Refusal :=
  match o with
  | .next s => f s
  | .fault r => .fault r
  | .refused r => .refused r

/-- The same outcome with a function applied to its next state. -/
def mapNext (f : State → State) (o : Host.Outcome State Fault Refusal) : Host.Outcome State Fault Refusal :=
  andThen o fun s => .next (f s)

/-- The events of a run, one at a time in their order, each by its rule (R10). -/
def runEvents : List Instr → State → Host.Outcome State Fault Refusal
  | [], s => .next s
  | i :: es, s => andThen (exec i s) (runEvents es)

/-- `k` steps of the event stream. -/
def runSteps : Nat → State → Host.Outcome State Fault Refusal
  | 0, s => .next s
  | k + 1, s => andThen (step s) (runSteps k)

/-- The agents, and the environment (R9). -/
inductive Agent where
  | irqA | irqB | foreground | environment
  deriving DecidableEq, Repr

/-- The one context that may issue an event (R11, R130). -/
def agentOf : Instr → Agent
  | .edgeA _ => .irqA
  | .edgeB _ => .irqB
  | .activate | .read | .write _ | .initMedium | .store _ | .recallFreqs => .foreground
  | .reset => .environment

/-- The two units, and what stands outside both (R7, R62). -/
inductive BlockUnit where
  | qdec | fstore | both
  deriving DecidableEq, Repr

/-- The unit whose operation an event is; RESET is both units' (R62, R137). -/
def unitOf : Instr → BlockUnit
  | .activate | .edgeA _ | .edgeB _ | .read | .write _ => .qdec
  | .initMedium | .store _ | .recallFreqs => .fstore
  | .reset => .both

/-- The event is one line's handler running. -/
def isEdge : Instr → Bool
  | .edgeA _ | .edgeB _ => true
  | .activate | .read | .write _ | .initMedium | .store _ | .recallFreqs | .reset => false

/-- `es` interleaves the sequences the agents issue, keeping each agent's own order (R12). -/
def interleaves (issued : Agent → List Instr) (es : List Instr) : Prop :=
  ∀ a, es.filter (fun i => decide (agentOf i = a)) = issued a

/-- `CW` (R73). -/
def cwCycle : List Instr := [.edgeB .low, .edgeA .low, .edgeB .high, .edgeA .high]

/-- `CCW` (R73). -/
def ccwCycle : List Instr := [.edgeA .low, .edgeB .low, .edgeA .high, .edgeB .high]

/-- `GLITCH_B` (R73). -/
def glitchB : List Instr := [.edgeB .low, .edgeB .high]

/-- `GLITCH_A` (R73). -/
def glitchA : List Instr := [.edgeA .low, .edgeA .high]

/-- `BOOT` (R73). -/
def boot : List Instr := [.reset, .activate, .initMedium, .recallFreqs]

/-- How many edge events of a run change `pos`: the classifier's changes (R36). What `WRITE` and RESET do to `pos` is not
counted. -/
def classifierCounts : List Instr → State → Nat
  | [], _ => 0
  | i :: es, s =>
    match exec i s with
    | .next t => (if isEdge i = true ∧ t.pos ≠ s.pos then 1 else 0) + classifierCounts es t
    | .fault _ => 0
    | .refused _ => 0

/-- No event before the last of a run visits `IDLE` (R36: "between two visits to `IDLE`"): the state after each edge event
and after each RESET is another. A foreground event leaves `dstate` where it is and so visits nothing. -/
def awayFromIdle : List Instr → State → Bool
  | [], _ => true
  | [_], _ => true
  | i :: es, s =>
    match exec i s with
    | .next t => (decide (agentOf i = .foreground) || decide (t.dstate ≠ .idle)) && awayFromIdle es t
    | .fault _ => false
    | .refused _ => false

end Sys2Proof.Machine
end

