-- ==== Sys2Proof/Machine/TraceText.lean ====
section
/-!
DEFINITION. The textual form of a trace (R72) and of the pseudo-events (R73): printing one event per line, and reading
lines back. It adds no behaviour; the tuples are normative (R68). Layout details the rule leaves open: log entry 19.
-/

namespace Sys2Proof.Machine

/-- A decimal digit. -/
def digitChar (d : Nat) : Char := Char.ofNat (48 + d)

/-- The decimal digits of a number with at most `fuel` of them. -/
def decimal : Nat → Nat → List Char
  | 0, _ => []
  | fuel + 1, n => (if n < 10 then [] else decimal fuel (n / 10)) ++ [digitChar (n % 10)]

/-- A 32-bit magnitude in decimal: ten digits are enough. -/
def decimal32 (n : Nat) : List Char := decimal 10 n

/-- `WRITE`'s operand as a signed decimal. -/
def positionText (n : Position) : List Char :=
  if n.toInt < 0 then '-' :: decimal32 n.toInt.natAbs else decimal32 n.toInt.natAbs

/-- `v1, v2, ..., vlen`. -/
def valuesText : List Freq → List Char
  | [] => []
  | [v] => decimal32 v.toNat
  | v :: rest => decimal32 v.toNat ++ (',' :: ' ' :: valuesText rest)

/-- A level as `EDGE_A` and `EDGE_B` write it. -/
def levelText : Level → List Char
  | .low => ['0']
  | .high => ['1']

/-- The mnemonic of an event (R62). -/
def mnemonicText : Instr → List Char
  | .activate   => ['A', 'C', 'T', 'I', 'V', 'A', 'T', 'E']
  | .edgeA _    => ['E', 'D', 'G', 'E', '_', 'A']
  | .edgeB _    => ['E', 'D', 'G', 'E', '_', 'B']
  | .read       => ['R', 'E', 'A', 'D']
  | .write _    => ['W', 'R', 'I', 'T', 'E']
  | .initMedium => ['I', 'N', 'I', 'T', '_', 'M', 'E', 'D', 'I', 'U', 'M']
  | .store _    => ['S', 'T', 'O', 'R', 'E']
  | .recallFreqs     => ['R', 'E', 'C', 'A', 'L', 'L']
  | .reset      => ['R', 'E', 'S', 'E', 'T']

/-- The operands of an event as text, separated by commas (R72). -/
def operandText : Instr → List Char
  | .edgeA l | .edgeB l => levelText l
  | .write n => positionText n
  | .store values => valuesText values
  | .activate | .read | .initMedium | .recallFreqs | .reset => []

/-- One event as a line (R72): "STORE" alone is `len = 0`. -/
def eventText (i : Instr) : List Char :=
  match operandText i with
  | [] => mnemonicText i
  | ops => mnemonicText i ++ (' ' :: ops)

/-- A trace, one event per line (R72). -/
def traceText (es : List Instr) : List Char := es.flatMap fun i => eventText i ++ ['\n']

/-- The value of a digit in a base up to sixteen. -/
def digitValue (base : Nat) (c : Char) : Option Nat :=
  let n := c.toNat
  let d := if 48 ≤ n ∧ n ≤ 57 then n - 48 else if 65 ≤ n ∧ n ≤ 70 then n - 55 else
    if 97 ≤ n ∧ n ≤ 102 then n - 87 else base
  if d < base then some d else none

/-- The number a run of digits stands for, after `acc`. -/
def readDigits (base acc : Nat) : List Char → Option Nat
  | [] => some acc
  | c :: cs =>
    match digitValue base c with
    | some d => readDigits base (base * acc + d) cs
    | none => none

/-- A number of at least one digit. -/
def readNumber (base : Nat) : List Char → Option Nat
  | [] => none
  | c :: cs => readDigits base 0 (c :: cs)

/-- A number below a bound. -/
def readBelow (base bound : Nat) (cs : List Char) : Option Nat :=
  match readNumber base cs with
  | some n => if n < bound then some n else none
  | none => none

/-- `n`: a signed decimal or a 0x hexadecimal pattern (R72). -/
def readPosition (cs : List Char) : Option Position :=
  match cs with
  | '-' :: ds => (readBelow 10 (2 ^ 31 + 1) ds).map fun n => BitVec.ofInt 32 (-(n : Int))
  | '0' :: 'x' :: ds => (readBelow 16 (2 ^ 32) ds).map fun n => BitVec.ofNat 32 n
  | ds => (readBelow 10 (2 ^ 31) ds).map fun n => BitVec.ofNat 32 n

/-- An unsigned decimal value in Hz (R72). -/
def readFreq (cs : List Char) : Option Freq := (readBelow 10 (2 ^ 32) cs).map fun n => BitVec.ofNat 32 n

/-- All values of a list, or none. -/
def readFreqs : List (List Char) → Option (List Freq)
  | [] => some []
  | w :: ws =>
    match readFreq w, readFreqs ws with
    | some v, some vs => some (v :: vs)
    | _, _ => none

/-- A level as it is written. -/
def readLevel (cs : List Char) : Option Level :=
  if cs = ['0'] then some .low else if cs = ['1'] then some .high else none

/-- Space inside a line. -/
def isBlank (c : Char) : Bool := c == ' ' || c == '\t' || c == '\r'

/-- A line without space around it. -/
def trim (cs : List Char) : List Char := ((cs.dropWhile isBlank).reverse.dropWhile isBlank).reverse

/-- The pieces between separators; there is always at least one. -/
def splitOnChar (sep : Char) : List Char → List (List Char)
  | [] => [[]]
  | c :: cs =>
    match splitOnChar sep cs with
    | [] => [[c]]
    | w :: ws => if c = sep then [] :: w :: ws else (c :: w) :: ws

/-- The operands of a line after its mnemonic: none where nothing is left. -/
def operandsOf (cs : List Char) : List (List Char) :=
  match trim cs with
  | [] => []
  | rest => (splitOnChar ',' rest).map trim

/-- The event or pseudo-event of a mnemonic and its operands (R72, R73). -/
def readEvent (m : List Char) (ops : List (List Char)) : Option (List Instr) :=
  match ops with
  | [] =>
    if m = ['R', 'E', 'S', 'E', 'T'] then some [.reset]
    else if m = ['A', 'C', 'T', 'I', 'V', 'A', 'T', 'E'] then some [.activate]
    else if m = ['R', 'E', 'A', 'D'] then some [.read]
    else if m = ['I', 'N', 'I', 'T', '_', 'M', 'E', 'D', 'I', 'U', 'M'] then some [.initMedium]
    else if m = ['S', 'T', 'O', 'R', 'E'] then some [.store []]
    else if m = ['R', 'E', 'C', 'A', 'L', 'L'] then some [.recallFreqs]
    else if m = ['C', 'W'] then some cwCycle
    else if m = ['C', 'C', 'W'] then some ccwCycle
    else if m = ['G', 'L', 'I', 'T', 'C', 'H', '_', 'A'] then some glitchA
    else if m = ['G', 'L', 'I', 'T', 'C', 'H', '_', 'B'] then some glitchB
    else if m = ['B', 'O', 'O', 'T'] then some boot
    else none
  | op :: more =>
    if m = ['S', 'T', 'O', 'R', 'E'] then
      if more.length < Config.nSlots then (readFreqs (op :: more)).map fun vs => [.store vs] else none
    else if more ≠ [] then none
    else if m = ['E', 'D', 'G', 'E', '_', 'A'] then (readLevel op).map fun l => [.edgeA l]
    else if m = ['E', 'D', 'G', 'E', '_', 'B'] then (readLevel op).map fun l => [.edgeB l]
    else if m = ['W', 'R', 'I', 'T', 'E'] then (readPosition op).map fun n => [.write n]
    else none

/-- A line: a semicolon starts a comment; a line with nothing else is no event (R72). -/
def readLine (cs : List Char) : Option (List Instr) :=
  match trim (cs.takeWhile fun c => c != ';') with
  | [] => some []
  | body => readEvent (body.takeWhile fun c => !isBlank c) (operandsOf (body.dropWhile fun c => !isBlank c))

/-- The events of the lines, in order. -/
def readLines : List (List Char) → Option (List Instr)
  | [] => some []
  | l :: ls =>
    match readLine l, readLines ls with
    | some es, some more => some (es ++ more)
    | _, _ => none

/-- A trace read from its text (R72). -/
def readTrace (cs : List Char) : Option (List Instr) := readLines (splitOnChar '\n' cs)

end Sys2Proof.Machine
end

