-- ==== Sys2Proof/Safety.lean ====
section
/-!
DEFINITION. What counts as a safe run, in the terms the statements use: the caller's contracts (R120, R140, R141), the
invariant every step keeps, what each unit shows (R7), and the cells of the access matrix (R33).
-/

namespace Sys2Proof.Machine

/-- The callers keep their contracts from a block with these two flags on: no `ACTIVATE` while armed, no `STORE` and no
`RECALL` before `INIT_MEDIUM` (R120). Every event is safe to issue exactly where this holds. -/
def contractKept (armed ready : Bool) : List Instr → Bool
  | [] => true
  | .activate :: es => !armed && contractKept true ready es
  | .initMedium :: es => contractKept armed true es
  | .store _ :: es => ready && contractKept armed ready es
  | .recallFreqs :: es => ready && contractKept armed ready es
  | .reset :: es => contractKept false false es
  | .edgeA _ :: es => contractKept armed ready es
  | .edgeB _ :: es => contractKept armed ready es
  | .read :: es => contractKept armed ready es
  | .write _ :: es => contractKept armed ready es

/-- A response as R67 and R112 want it: a count from 1 to 9, and every value valid. -/
def responseLegal (c : Params) : Response → Bool
  | .position _ => true
  | .frequencies values =>
    decide (1 ≤ values.length) && decide (values.length ≤ Config.nSlots) && values.all (valid c)

/-- An operation on the medium port as R44, R45 and R48 want it: offset 0, 4, ..., 32. -/
def mediumOpLegal : MediumOp → Bool
  | .get off => decide (off % Config.slotBytes = 0) && decide (off < Config.regionBytes)
  | .put off _ => decide (off % Config.slotBytes = 0) && decide (off < Config.regionBytes)
  | .commit => true

/-- The invariant: the parameters are such as the spec's figures are; the two lines are two (R26); the medium keeps its
canonical form and lies on the medium (R40); nothing is uncommitted between two events (R35); every response and every
medium operation so far was legal (R67, R112, R48). -/
structure State.Inv (s : State) : Prop where
  params_legal : paramsLegal s.params = true
  pins_differ : s.pinA ≠ s.pinB
  medium_wf : Memory.wf s.medium = true
  medium_within : Memory.within s.medium s.params.mediumSize = true
  all_committed : s.durable = s.medium
  responses_legal : s.responses.all (responseLegal s.params) = true
  port_legal : s.mediumPort.all mediumOpLegal = true

/-- What QDEC holds and has shown (R20, R13). -/
structure QdecView where
  lvlA      : Level
  lvlB      : Level
  dstate    : DState
  pos       : Position
  armed     : Bool
  positions : List Response
  deriving DecidableEq, Repr

/-- What FSTORE holds and has shown, and its medium (R20, R13, R14). -/
structure FstoreView where
  medReady    : Bool
  medium      : Memory
  durable     : Memory
  mediumPort  : List MediumOp
  frequencies : List Response
  deriving DecidableEq, Repr

/-- The response is `READ`'s. -/
def isPosition : Response → Bool
  | .position _ => true
  | .frequencies _ => false

/-- QDEC's part of a state. -/
def State.qdecView (s : State) : QdecView :=
  ⟨s.lvlA, s.lvlB, s.dstate, s.pos, s.armed, s.responses.filter isPosition⟩

/-- FSTORE's part of a state. -/
def State.fstoreView (s : State) : FstoreView :=
  ⟨s.medReady, s.medium, s.durable, s.mediumPort, s.responses.filter fun r => !isPosition r⟩

/-- The rows of the access matrix (R33). -/
inductive Element where
  | lvlA | lvlB | dstate | pos | armed | medReady | medium
  deriving DecidableEq, Repr

/-- The state with one element taken from another state; the medium with what is durable of it. -/
def State.takeElement (e : Element) (u s : State) : State :=
  match e with
  | .lvlA     => { s with lvlA := u.lvlA }
  | .lvlB     => { s with lvlB := u.lvlB }
  | .dstate   => { s with dstate := u.dstate }
  | .pos      => { s with pos := u.pos }
  | .armed    => { s with armed := u.armed }
  | .medReady => { s with medReady := u.medReady }
  | .medium   => { s with medium := u.medium, durable := u.durable }

/-- The matrix of R33 says the event writes the element. -/
def mayWrite (i : Instr) (e : Element) : Bool :=
  match i with
  | .reset => e != .medium
  | .activate => e == .armed
  | .edgeA _ => e == .lvlA || e == .dstate || e == .pos
  | .edgeB _ => e == .lvlB || e == .dstate || e == .pos
  | .read => false
  | .write _ => e == .pos
  | .initMedium => e == .medReady
  | .store _ => e == .medium
  | .recallFreqs => false

/-- The matrix of R33 says the event reads the element; and `ACTIVATE` reads `armed`, which the matrix leaves out and
R78 says (log entry 13). -/
def mayRead (i : Instr) (e : Element) : Bool :=
  match i with
  | .reset => false
  | .activate => e == .armed
  | .edgeA _ => e == .lvlA || e == .lvlB || e == .dstate || e == .pos || e == .armed
  | .edgeB _ => e == .lvlA || e == .lvlB || e == .dstate || e == .pos || e == .armed
  | .read => e == .pos
  | .write _ => false
  | .initMedium => false
  | .store _ => e == .medReady
  | .recallFreqs => e == .medReady || e == .medium

/-- The other direction's state, with the lines exchanged. -/
def mirrorState : DState → DState
  | .idle => .idle | .cw1 => .ccw1 | .cw2 => .ccw2 | .cw3 => .ccw3 | .ccw1 => .cw1 | .ccw2 => .cw2 | .ccw3 => .cw3

/-- The other value of IDLE_TIE. -/
def otherTie : IdleTie → IdleTie
  | .ccwWins => .cwWins
  | .cwWins => .ccwWins

/-- A state seen with the two lines exchanged, the direction reversed and IDLE_TIE's winner renamed. -/
def mirror (s : State) : State :=
  { s with
    lvlA := s.lvlB
    lvlB := s.lvlA
    dstate := mirrorState s.dstate
    pos := -s.pos
    params := { s.params with idleTie := otherTie s.params.idleTie } }

end Sys2Proof.Machine
end

