-- ==== Sys2Proof/Certificates/Slice0/Obligations.lean ====
section
/-!
DEFINITION. The statements about the QDFS block, for the provers. Each docstring names the rule of spec/ it formalises;
where a clause rests on a decision of the spec (D<n>) or on a log entry of the model it says so.
-/

open Sys2Proof Sys2Proof.Machine

/-! ### Reset and QDEC -/

/-- R137, R38: RESET is legal in every state, gives the six elements their reset values (all but `dstate` by the spec's
decisions D6, D7, D9, D19) and changes nothing else; a run that begins with RESET reaches the state it started in. -/
def Obligations.ResetEventLeavesResetValues : Prop :=
  (∀ s : State, ∃ t, exec .reset s = .next t ∧
    t.dstate = .idle ∧ t.pos = 0 ∧ t.lvlA = .high ∧ t.lvlB = .high ∧ t.armed = false ∧ t.medReady = false ∧
    t.pinA = s.pinA ∧ t.pinB = s.pinB ∧ t.params = s.params ∧
    (∀ a, Memory.read t.medium a = Memory.read s.medium a) ∧
    (∀ a, Memory.read t.durable a = Memory.read s.durable a) ∧
    t.input = s.input ∧ t.responses = s.responses ∧ t.mediumPort = s.mediumPort) ∧
  exec .reset State.reset = .next State.reset

/-- R78: `ACTIVATE` sets `armed` and writes nothing else (it samples no line); with `armed = 1` it is refused (D10); a
RESET between makes the second one legal again. -/
def Obligations.ActivateArmsOnceBetweenResets : Prop :=
  ∀ s : State,
    (s.armed = false → exec .activate s = .next { s with armed := true }) ∧
    (s.armed = true → exec .activate s = .refused .repeatedActivate) ∧
    ∃ t, runEvents [.reset, .activate] s = .next t ∧ t.armed = true

/-- R80: an armed `EDGE_A l` writes `lvl_a` and then takes `dstate` and `pos` from one classifier run on the new pair; it
writes nothing else. Unarmed it changes nothing (D9). -/
def Obligations.EdgeASamplesLineAAndClassifiesOnce : Prop :=
  ∀ (l : Level) (s : State),
    (s.armed = true → exec (.edgeA l) s = .next { s with
      lvlA := l
      dstate := (classify s.params s.dstate l s.lvlB s.pos).1
      pos := (classify s.params s.dstate l s.lvlB s.pos).2 }) ∧
    (s.armed = false → exec (.edgeA l) s = .next s)

/-- R81: the same of `EDGE_B l` with the lines exchanged. -/
def Obligations.EdgeBSamplesLineBAndClassifiesOnce : Prop :=
  ∀ (l : Level) (s : State),
    (s.armed = true → exec (.edgeB l) s = .next { s with
      lvlB := l
      dstate := (classify s.params s.dstate s.lvlA l s.pos).1
      pos := (classify s.params s.dstate s.lvlA l s.pos).2 }) ∧
    (s.armed = false → exec (.edgeB l) s = .next s)

/-- R84: the four pairs in `IDLE`, for both values of the OPEN parameter IDLE_TIE. -/
def Obligations.IdleStateTransitions : Prop :=
  ∀ (c : Params) (p : Position),
    classify c .idle .high .high p = (.idle, p) ∧
    classify c .idle .high .low p = (.cw1, p) ∧
    classify c .idle .low .high p = (.ccw1, p) ∧
    (c.idleTie = .ccwWins → classify c .idle .low .low p = (.ccw1, p)) ∧
    (c.idleTie = .cwWins → classify c .idle .low .low p = (.cw1, p))

/-- R85, R86, R87: every pair in the clockwise arc, for both values of the OPEN parameter GLITCH_GUARD. The increment
is modulo 2^32 (D5). -/
def Obligations.ClockwiseArcTransitions : Prop :=
  ∀ (c : Params) (p : Position),
    classify c .cw1 .low .low p = (.cw2, p + 1) ∧
    classify c .cw1 .high .high p = (.idle, p) ∧
    classify c .cw1 .high .low p = (.cw1, p) ∧
    (c.glitchGuard = .bothHigh → classify c .cw1 .low .high p = (.cw1, p)) ∧
    (c.glitchGuard = .leadHigh → classify c .cw1 .low .high p = (.idle, p)) ∧
    (∀ a, classify c .cw2 a .high p = (.cw3, p)) ∧
    (∀ a, classify c .cw2 a .low p = (.cw2, p)) ∧
    (∀ b, classify c .cw3 .high b p = (.idle, p)) ∧
    (∀ b, classify c .cw3 .low b p = (.cw3, p))

/-- R88, R89, R90: every pair in the counter-clockwise arc. The decrement is modulo 2^32 (D5). -/
def Obligations.CounterClockwiseArcTransitions : Prop :=
  ∀ (c : Params) (p : Position),
    classify c .ccw1 .low .low p = (.ccw2, p - 1) ∧
    classify c .ccw1 .high .high p = (.idle, p) ∧
    classify c .ccw1 .low .high p = (.ccw1, p) ∧
    (c.glitchGuard = .bothHigh → classify c .ccw1 .high .low p = (.ccw1, p)) ∧
    (c.glitchGuard = .leadHigh → classify c .ccw1 .high .low p = (.idle, p)) ∧
    (∀ b, classify c .ccw2 .high b p = (.ccw3, p)) ∧
    (∀ b, classify c .ccw2 .low b p = (.ccw2, p)) ∧
    (∀ a, classify c .ccw3 a .high p = (.idle, p)) ∧
    (∀ a, classify c .ccw3 a .low p = (.ccw3, p))

/-- R152: whichever line falls second, a clockwise detent steps the signed `pos` up by one and wraps at 2147483647, a
counter-clockwise one steps it down and wraps at -2147483648 (D5). -/
def Obligations.DetentsStepThePositionAndWrap : Prop :=
  ∀ s : State, s.armed = true →
    (s.dstate = .cw1 → ∀ i, (i = .edgeA .low ∧ s.lvlB = .low ∨ i = .edgeB .low ∧ s.lvlA = .low) →
      ∃ t, exec i s = .next t ∧ t.dstate = .cw2 ∧
        t.pos.toInt = if s.pos.toInt = 2147483647 then -2147483648 else s.pos.toInt + 1) ∧
    (s.dstate = .ccw1 → ∀ i, (i = .edgeA .low ∧ s.lvlB = .low ∨ i = .edgeB .low ∧ s.lvlA = .low) →
      ∃ t, exec i s = .next t ∧ t.dstate = .ccw2 ∧
        t.pos.toInt = if s.pos.toInt = -2147483648 then 2147483647 else s.pos.toInt - 1)

/-- R88 ("mirror logic"): each direction's logic is the other's with the lines exchanged and minus for plus. -/
def Obligations.TheTwoDirectionsAreMirrorImages : Prop :=
  ∀ (l : Level) (s : State),
    exec (.edgeB l) (mirror s) = mapNext mirror (exec (.edgeA l) s) ∧
    exec (.edgeA l) (mirror s) = mapNext mirror (exec (.edgeB l) s)

/-- The source's cycle properties (R97, R98, which the spec derives): from `IDLE` with both lines cached high a full
cycle moves `pos` by exactly one and changes nothing else, for every value of the open parameters. -/
def Obligations.FullCyclesCountExactlyOne : Prop :=
  ∀ s : State, s.armed = true → s.lvlA = .high → s.lvlB = .high → s.dstate = .idle →
    runEvents cwCycle s = .next { s with pos := s.pos + 1 } ∧
    runEvents ccwCycle s = .next { s with pos := s.pos - 1 }

/-- The source's glitch property (R99, R151) for any amount of bounce: while the other line stays cached high, no
sequence of edges on one line is ever counted, and the machine is back in `IDLE` whenever the line is high. -/
def Obligations.BounceOnOneLineIsNeverCounted : Prop :=
  ∀ (ls : List Level) (s : State), s.armed = true → s.dstate = .idle → s.lvlA = .high → s.lvlB = .high →
    (∃ t, runEvents (ls.map Instr.edgeB) s = .next t ∧ t.pos = s.pos ∧
      t.dstate = (if t.lvlB = .high then .idle else .cw1)) ∧
    (∃ t, runEvents (ls.map Instr.edgeA) s = .next t ∧ t.pos = s.pos ∧
      t.dstate = (if t.lvlA = .high then .idle else .ccw1))

/-- R149 (derived by the spec): a rotation half way and back leaves `pos` one higher and the machine in `CW_3` with both
lines high; the next full clockwise cycle is then not counted, for every value of the open parameters. -/
def Obligations.HalfTurnAndBackSwallowsTheNextCycle : Prop :=
  ∀ s : State, s.armed = true → s.lvlA = .high → s.lvlB = .high → s.dstate = .idle →
    runEvents [.edgeB .low, .edgeA .low, .edgeA .high, .edgeB .high] s =
      .next { s with dstate := .cw3, pos := s.pos + 1 } ∧
    runEvents ([.edgeB .low, .edgeA .low, .edgeA .high, .edgeB .high] ++ cwCycle) s =
      .next { s with pos := s.pos + 1 }

/-- R94: no sequence of edge events faults, sticks or is refused, and none touches anything but the four QDEC elements
an edge writes. -/
def Obligations.EveryEdgeSequenceIsAbsorbed : Prop :=
  ∀ (es : List Instr) (s : State), es.all isEdge = true →
    ∃ (a b : Level) (d : DState) (p : Position),
      runEvents es s = .next { s with lvlA := a, lvlB := b, dstate := d, pos := p }

/-- R36 (derived by the spec): `pos` changes only at the two counting transitions, at `WRITE` and at RESET; and every
edge event that makes a counting transition does change it. -/
def Obligations.PositionChangesOnlyAtDetentsWriteAndReset : Prop :=
  ∀ (i : Instr) (s t : State), exec i s = .next t →
    (t.pos ≠ s.pos →
      (isEdge i = true ∧ s.dstate = .cw1 ∧ t.dstate = .cw2 ∧ t.pos = s.pos + 1) ∨
      (isEdge i = true ∧ s.dstate = .ccw1 ∧ t.dstate = .ccw2 ∧ t.pos = s.pos - 1) ∨
      i = .write t.pos ∨ (i = .reset ∧ t.pos = 0)) ∧
    (isEdge i = true → s.dstate = .cw1 → t.dstate = .cw2 → t.pos = s.pos + 1) ∧
    (isEdge i = true → s.dstate = .ccw1 → t.dstate = .ccw2 → t.pos = s.pos - 1)

/-- R36 (derived by the spec), over whole runs: from `IDLE`, until the next visit to `IDLE`, the classifier changes `pos`
at most once, whatever the events: the edges in any order, with any foreground events before, between and after them,
`WRITE` included. -/
def Obligations.AtMostOneCountBetweenIdleVisits : Prop :=
  ∀ (es : List Instr) (s : State), s.dstate = .idle → awayFromIdle es s = true → classifierCounts es s ≤ 1

/-- R95: `READ` responds with all of `pos` and changes no state, in every state (D28). -/
def Obligations.ReadRespondsWithThePosition : Prop :=
  ∀ s : State, exec .read s = .next { s with responses := s.responses ++ [.position s.pos] }

/-- R96: `WRITE n` replaces `pos` and writes nothing else, in every state and for every `n` (D28). -/
def Obligations.WriteReplacesThePositionOnly : Prop :=
  ∀ (n : Position) (s : State), exec (.write n) s = .next { s with pos := n }

/-- The source's property in R99: a `READ` right after `WRITE n` responds `n`; with any `READ`s between as well. -/
def Obligations.ReadsAfterWriteReturnTheValue : Prop :=
  ∀ (n : Position) (k : Nat) (s : State),
    runEvents (.write n :: List.replicate k .read) s =
      .next { s with pos := n, responses := s.responses ++ List.replicate k (.position n) }

/-- R33's cells without access, and R78's reading of `armed` (log entry 13): an event neither reads nor writes the
elements its row leaves out, and it writes no element its row gives no `w`. -/
def Obligations.EventsTouchOnlyTheirElements : Prop :=
  (∀ (i : Instr) (e : Element) (u s : State), mayRead i e = false → mayWrite i e = false →
    exec i (State.takeElement e u s) = mapNext (State.takeElement e u) (exec i s)) ∧
  (∀ (i : Instr) (e : Element) (s t : State), exec i s = .next t → mayWrite i e = false →
    State.takeElement e s t = t)

/-- R122: RESET disables both edge sources, `ACTIVATE` enables both together, nothing else changes the enabling; while
it is off neither line's events have an effect, while it is on each runs its handler (R127). -/
def Obligations.EdgeDeliveryIsEnabledByActivateUntilReset : Prop :=
  (∀ (i : Instr) (s t : State), exec i s = .next t →
    t.armed = (match i with | .activate => true | .reset => false | _ => s.armed)) ∧
  (∀ (l : Level) (s : State), s.armed = false →
    exec (.edgeA l) s = .next s ∧ exec (.edgeB l) s = .next s) ∧
  (∀ (l : Level) (s : State), s.armed = true →
    exec (.edgeA l) s = .next (handlerEntry .a l s) ∧ exec (.edgeB l) s = .next (handlerEntry .b l s))

/-- R26: no event reads or writes the pins, RESET included; and the two differ at the start (D30). -/
def Obligations.PinsAreNeitherReadNorWritten : Prop :=
  (∀ (i : Instr) (s : State) (a b : PinId),
    exec i { s with pinA := a, pinB := b } = mapNext (fun t => { t with pinA := a, pinB := b }) (exec i s)) ∧
  (∀ (i : Instr) (s t : State), exec i s = .next t →
    t.pinA = s.pinA ∧ t.pinB = s.pinB) ∧
  State.reset.pinA ≠ State.reset.pinB

/-- R125: when both lines fall together from rest, every order the two agents can be served in is one of two; either
counts, and the order decides the direction. -/
def Obligations.CrossLineOrderDecidesTheDirection : Prop :=
  ∀ (s : State) (es : List Instr), s.armed = true → s.lvlA = .high → s.lvlB = .high → s.dstate = .idle →
    interleaves (fun | .irqA => [.edgeA .low] | .irqB => [.edgeB .low] | _ => []) es →
    ∃ t, runEvents es s = .next t ∧
      ((es = [.edgeA .low, .edgeB .low] ∧ t.dstate = .ccw2 ∧ t.pos = s.pos - 1) ∨
       (es = [.edgeB .low, .edgeA .low] ∧ t.dstate = .cw2 ∧ t.pos = s.pos + 1))

/-! ### FSTORE and the medium -/

/-- R100: with the limits the spec takes (D17), `Valid` is the closed band in unsigned Hz. -/
def Obligations.ValidIsTheClosedBand : Prop :=
  ∀ v : Freq, valid Defaults.params v = true ↔ 143500000 ≤ v.toNat ∧ v.toNat ≤ 146500000

/-- R104, R105: `INIT_MEDIUM` sets `med_ready` and changes nothing else, no medium byte among it; repeated, it changes
nothing (D20). -/
def Obligations.InitMediumSetsReadyAndErasesNothing : Prop :=
  ∀ s : State, exec .initMedium s = .next { s with medReady := true } ∧
    (s.medReady = true → exec .initMedium s = .next s)

/-- R103: `STORE` and `RECALL` require `med_ready = 1`; without it they are refused (D19). -/
def Obligations.MediumEventsAreRefusedBeforeInit : Prop :=
  ∀ (vs : List Freq) (s : State),
    (s.medReady = false → exec (.store vs) s = .refused .mediumNotReady ∧ exec .recallFreqs s = .refused .mediumNotReady) ∧
    (s.medReady = true → (∃ t, exec (.store vs) s = .next t) ∧ ∃ t, exec .recallFreqs s = .next t)

/-- R106: with `k` the length of the valid prefix, `STORE` puts it in slots 1..k and the sentinel in slot k+1 where
k < 9, in ascending slot order, leaves every other byte of the medium as it was (R107), commits once, last, whether or
not the list ended early, and writes no other state; with the medium not ready it is refused (R103). -/
def Obligations.StoreWritesTheValidPrefixThenTheSentinel : Prop :=
  ∀ (vs : List Freq) (s : State), (Instr.store vs).wf = true → Memory.wf s.medium = true →
    (s.medReady = false → exec (.store vs) s = .refused .mediumNotReady) ∧
    (s.medReady = true → ∃ t, exec (.store vs) s = .next t ∧
      (∀ j, ∀ h : j < (validPrefix s.params vs).length,
        Memory.slot t.medium (j + 1) = (validPrefix s.params vs)[j]) ∧
      ((validPrefix s.params vs).length < 9 →
        Memory.slot t.medium ((validPrefix s.params vs).length + 1) = 0xFFFFFFFF) ∧
      (∀ a, 4 * min ((validPrefix s.params vs).length + 1) 9 ≤ a → Memory.read t.medium a = Memory.read s.medium a) ∧
      t.durable = t.medium ∧
      t.mediumPort = s.mediumPort ++ putsFrom 1 (validPrefix s.params vs) ++
        (if (validPrefix s.params vs).length < 9 then
          [.put (4 * (validPrefix s.params vs).length) 0xFFFFFFFF] else []) ++ [.commit] ∧
      t = { s with medium := t.medium, durable := t.durable, mediumPort := t.mediumPort })

/-- R110, R111: `RECALL` responds with the valid prefix of the medium, or with DEFAULT_1 and DEFAULT_2 (both valid; their
values are D18's) where slot 1 is invalid; it issues m+1 gets (9 where m = 9) in ascending slot order and writes nothing
(D21); with the medium not ready it is refused (R103). -/
def Obligations.RecallRespondsWithTheValidPrefixOrTheDefaults : Prop :=
  (∀ s : State,
    (s.medReady = false → exec .recallFreqs s = .refused .mediumNotReady) ∧
    (s.medReady = true → exec .recallFreqs s = .next { s with
      responses := s.responses ++
        [.frequencies (if valid s.params (Memory.slot s.medium 1) then mediumPrefix s.params s.medium
          else [s.params.default1, s.params.default2])]
      mediumPort := s.mediumPort ++ getsFrom 1 (min ((mediumPrefix s.params s.medium).length + 1) 9) })) ∧
  Defaults.params.default1.toNat = 144710000 ∧ Defaults.params.default2.toNat = 145000000 ∧
  valid Defaults.params Defaults.params.default1 = true ∧ valid Defaults.params Defaults.params.default2 = true

/-- R112 (derived by the spec): under parameters like the spec's, the count is always 1 to 9 and every value returned
is valid, whatever the medium holds. -/
def Obligations.RecallReturnsOneToNineValidValues : Prop :=
  ∀ s : State, s.medReady = true → paramsLegal s.params = true →
    ∃ t out, exec .recallFreqs s = .next t ∧ t.responses = s.responses ++ [.frequencies out] ∧
      1 ≤ out.length ∧ out.length ≤ 9 ∧ ∀ v ∈ out, valid s.params v = true

/-- R114 (derived by the spec): `RECALL` after `STORE` responds the stored valid prefix, or the defaults where it is
empty, whatever the medium held before and whatever events but another `STORE` fall between the two; the run completes
wherever the callers keep their contracts (a RESET between asks for an `INIT_MEDIUM` after it). -/
def Obligations.RecallAfterStoreReturnsTheStoredPrefix : Prop :=
  ∀ (vs : List Freq) (es : List Instr) (s : State),
    Memory.wf s.medium = true → paramsLegal s.params = true → (∀ i ∈ es, ∀ ws, i ≠ .store ws) →
    contractKept s.armed s.medReady (.store vs :: es ++ [.recallFreqs]) = true →
    ∃ t before, runEvents (.store vs :: es ++ [.recallFreqs]) s = .next t ∧
      t.responses = before ++ [.frequencies (if validPrefix s.params vs = [] then
        [s.params.default1, s.params.default2] else validPrefix s.params vs)]

/-- R115 (the source's round trip): `RECALL`, `STORE` of what it returned, `RECALL` gives the same list and count
twice, from every medium. -/
def Obligations.RecallStoreRecallRoundTrip : Prop :=
  ∀ s : State, s.medReady = true → Memory.wf s.medium = true → paramsLegal s.params = true →
    ∃ out t u, exec .recallFreqs s = .next t ∧ t.responses = s.responses ++ [.frequencies out] ∧
      runEvents [.store out, .recallFreqs] t = .next u ∧
      u.responses = s.responses ++ [.frequencies out, .frequencies out]

/-- R102: the first invalid entry ends the valid run, for `STORE` and for `RECALL`: values after it in the operand and
slots after it on the medium change nothing. -/
def Obligations.NothingAfterTheFirstInvalidEntryCounts : Prop :=
  (∀ (vs : List Freq) (s : State), exec (.store vs) s = exec (.store (validPrefix s.params vs)) s) ∧
  (∀ (s u : State), s.medReady = true → u = { s with medium := u.medium } →
    (∀ a, a < 4 * min ((mediumPrefix s.params s.medium).length + 1) 9 →
      Memory.read u.medium a = Memory.read s.medium a) →
    ∃ t, exec .recallFreqs s = .next t ∧ exec .recallFreqs u = .next { t with medium := u.medium })

/-- R49 and F12: what a `STORE` committed is recalled after a power cycle, as the one response; the two defaults where the
stored valid prefix was empty. -/
def Obligations.StoredListSurvivesAPowerCycle : Prop :=
  ∀ (vs : List Freq) (s : State),
    s.medReady = true → Memory.wf s.medium = true → paramsLegal s.params = true →
    ∃ t, runEvents [.store vs, .reset, .initMedium, .recallFreqs] s = .next t ∧
      t.responses = s.responses ++ [.frequencies (if validPrefix s.params vs = [] then
        [s.params.default1, s.params.default2] else validPrefix s.params vs)]

/-- R39, R40, R51, R56: only `STORE` changes a medium byte, and none at offset 36 or above; only `STORE` and `RECALL`
use the medium port; only `STORE` commits. -/
def Obligations.TheMediumIsReachedByStoreAndRecallOnly : Prop :=
  ∀ (i : Instr) (s t : State), exec i s = .next t →
    ((∀ vs, i ≠ .store vs) → t.medium = s.medium ∧ t.durable = s.durable) ∧
    (∀ a, 36 ≤ a → Memory.read t.medium a = Memory.read s.medium a) ∧
    ((∀ vs, i ≠ .store vs) → i ≠ .recallFreqs → t.mediumPort = s.mediumPort) ∧
    (i = .recallFreqs → ∃ gs, t.mediumPort = s.mediumPort ++ gs ∧ ∀ o ∈ gs, ∃ off, o = .get off)

/-- R45, R46: a put replaces the four bytes at its offset, least significant byte first, and no other, and is durable
after the next commit only; a get then returns the value put and changes nothing of the state but the log of the medium
port, the model's own (R44, log entry 3); a commit changes no byte that a get sees. -/
def Obligations.PutReplacesFourBytesLeastSignificantFirst : Prop :=
  ∀ (s : State) (off : Nat) (v : Word), Memory.wf s.medium = true →
    Memory.read (s.medPut off v).medium off = v.extractLsb' 0 8 ∧
    Memory.read (s.medPut off v).medium (off + 1) = v.extractLsb' 8 8 ∧
    Memory.read (s.medPut off v).medium (off + 2) = v.extractLsb' 16 8 ∧
    Memory.read (s.medPut off v).medium (off + 3) = v.extractLsb' 24 8 ∧
    (∀ a, a < off ∨ off + 4 ≤ a → Memory.read (s.medPut off v).medium a = Memory.read s.medium a) ∧
    ((s.medPut off v).medGet off).1 = v ∧
    ((s.medPut off v).medGet off).2 =
      { s.medPut off v with mediumPort := (s.medPut off v).mediumPort ++ [.get off] } ∧
    (s.medPut off v).durable = s.durable ∧
    (∀ a, Memory.read (s.medPut off v).medCommit.durable a = Memory.read (s.medPut off v).medium a) ∧
    (∀ a, Memory.read (s.medPut off v).medCommit.medium a = Memory.read (s.medPut off v).medium a)

/-- The canonical form (the model's own): two canonical media with the same bytes are the same list. -/
def Obligations.CanonicalMediaWithEqualBytesAreEqual : Prop :=
  ∀ m n : Memory, Memory.wf m = true → Memory.wf n = true → (∀ a, Memory.read m a = Memory.read n a) → m = n

/-! ### The two units and the agents -/

/-- R7: QDEC's part of every run is what it would be without the FSTORE events. -/
def Obligations.QdecRunsAsWithoutTheFstoreEvents : Prop :=
  ∀ (es : List Instr) (s t : State), runEvents es s = .next t →
    ∃ u, runEvents (es.filter fun i => decide (unitOf i ≠ .fstore)) s = .next u ∧ u.qdecView = t.qdecView

/-- R7: FSTORE's part of every run is what it would be without the QDEC events. -/
def Obligations.FstoreRunsAsWithoutTheQdecEvents : Prop :=
  ∀ (es : List Instr) (s t : State), runEvents es s = .next t →
    ∃ u, runEvents (es.filter fun i => decide (unitOf i ≠ .qdec)) s = .next u ∧ u.fstoreView = t.fstoreView

/-- R116: an edge event before or after a `STORE` or `RECALL` gives the same outcome, refusals included. -/
def Obligations.EdgesCommuteWithStoreAndRecall : Prop :=
  ∀ (e f : Instr) (s : State), isEdge e = true → (f = .recallFreqs ∨ ∃ vs, f = .store vs) →
    runEvents [e, f] s = runEvents [f, e] s

/-- R53 (a) and R95: a `READ` put anywhere in a run responds with the `pos` left by the events before it and changes
nothing for the events after it. -/
def Obligations.ReadAnywhereChangesNothingElse : Prop :=
  ∀ (es fs : List Instr) (s t : State), runEvents (es ++ fs) s = .next t →
    ∃ m more u, runEvents es s = .next m ∧ t.responses = m.responses ++ more ∧
      runEvents (es ++ .read :: fs) s = .next u ∧
      u = { t with responses := m.responses ++ .position m.pos :: more }

/-- R67: `READ` and `RECALL` put one response each on the port, the other events none; the bytes of a response. -/
def Obligations.ResponsesComeFromReadAndRecallOnly : Prop :=
  (∀ (i : Instr) (s t : State), exec i s = .next t →
    ∃ rs, t.responses = s.responses ++ rs ∧
      (i = .read → rs = [.position s.pos]) ∧
      (i = .recallFreqs → ∃ out, rs = [.frequencies out] ∧ 1 ≤ out.length ∧ out.length ≤ 9) ∧
      (i ≠ .read → i ≠ .recallFreqs → rs = [])) ∧
  (∀ p : Position, Response.bytes (.position p) =
    [p.extractLsb' 0 8, p.extractLsb' 8 8, p.extractLsb' 16 8, p.extractLsb' 24 8]) ∧
  (∀ out : List Freq, out.length ≤ 9 →
    (Response.bytes (.frequencies out)).length = 1 + 4 * out.length ∧
    ((Response.bytes (.frequencies out)).head?.map BitVec.toNat) = some out.length ∧
    ∀ rest, takeWords out.length ((Response.bytes (.frequencies out)).tail ++ rest) = some (out, rest))

/-- R120, R94, R117: an event completes exactly where the caller's contract holds, for every event kind; where it does
not complete it is refused by the name of the contract broken. -/
def Obligations.EventsCompleteExactlyWhereTheContractHolds : Prop :=
  ∀ (i : Instr) (s : State),
    (contractKept s.armed s.medReady [i] = true → ∃ t, exec i s = .next t) ∧
    (contractKept s.armed s.medReady [i] = false →
      (i = .activate ∧ exec i s = .refused .repeatedActivate) ∨
      ((i = .recallFreqs ∨ ∃ vs, i = .store vs) ∧ exec i s = .refused .mediumNotReady))

/-- R140, R141: a run completes exactly where its callers follow the boot orders. -/
def Obligations.RunsCompleteExactlyWhereTheBootOrdersAreKept : Prop :=
  ∀ (es : List Instr) (s : State),
    (∃ t, runEvents es s = .next t) ↔ contractKept s.armed s.medReady es = true

/-- R12: whatever each line's handler does and however the agents interleave, a run completes when the foreground
keeps its own contract in its own order. -/
def Obligations.EveryInterleavingOfALegalForegroundRuns : Prop :=
  ∀ (issued : Agent → List Instr) (es : List Instr) (s : State), interleaves issued es →
    issued .environment = [] → contractKept s.armed s.medReady (issued .foreground) = true →
    ∃ t, runEvents es s = .next t

/-- R73's BOOT with R140, R141, R111: from every state with legal parameters it completes, arms the block, makes the
medium ready and ends with one `RECALL` response of legal form: a count of one to nine, every value valid (R112). -/
def Obligations.BootRunsFromEveryState : Prop :=
  ∀ s : State, paramsLegal s.params = true →
    ∃ t out, runEvents boot s = .next t ∧ t.armed = true ∧ t.medReady = true ∧ t.dstate = .idle ∧ t.pos = 0 ∧
      t.medium = s.medium ∧ t.responses = s.responses ++ [.frequencies out] ∧
      responseLegal s.params (.frequencies out) = true

/-! ### The event stream -/

/-- R60 to R65: decoding the bytes of a well-formed event gives it back with every operand, and the bytes after it. -/
def Obligations.DecodeOfEncodeIsTheEvent : Prop :=
  ∀ (i : Instr) (rest : List Byte), i.wf = true → decode (encode i ++ rest) = .event i rest

/-- R69, R70: an event has one spelling: whatever decodes is well formed and is the encoding of what it decodes to, so
no must-be-zero bit is ignored. -/
def Obligations.DecodedBytesAreTheEncoding : Prop :=
  ∀ (bs rest : List Byte) (i : Instr), decode bs = .event i rest → i.wf = true ∧ bs = encode i ++ rest

/-- R66: the length is known from the first one or two bytes, it is the one of the event's format, and it is one of the
twelve lengths listed. -/
def Obligations.EventLengthIsKnownFromItsFirstBytes : Prop :=
  ∀ (bs rest : List Byte) (i : Instr), decode bs = .event i rest →
    eventLength (bs.take 2) = some (encode i).length ∧ bs.length = (encode i).length + rest.length ∧
    (encode i).length = (match i with | .write _ => 5 | .store vs => 2 + 4 * vs.length | _ => 1) ∧
    (encode i).length ∈ [1, 2, 5, 6, 10, 14, 18, 22, 26, 30, 34, 38]

/-- R70 (D25): (a) unassigned opcodes, (b) must-be-zero bits of byte 0, (c) `STORE` lengths above nine or with high bits
set, (d) a stream that ends inside an event: each is refused and so runs nothing (the refusals' names: log entry 14). -/
def Obligations.ReservedEncodingsAreRefused : Prop :=
  (∀ (b : Byte) (bs : List Byte) (s : State), s.input = b :: bs →
    b.extractLsb' 4 4 ∈ [0b0000#4, 0b0110#4, 0b0111#4, 0b1011#4, 0b1100#4, 0b1101#4, 0b1110#4] →
    step s = .refused .unassignedOpcode) ∧
  (∀ (b : Byte) (bs : List Byte) (s : State), s.input = b :: bs →
    b.extractLsb' 4 4 ∈ [0b0001#4, 0b0100#4, 0b0101#4, 0b1000#4, 0b1001#4, 0b1010#4, 0b1111#4] →
    b.extractLsb' 0 4 ≠ 0 → step s = .refused .mustBeZeroBitSet) ∧
  (∀ (b : Byte) (bs : List Byte) (s : State), s.input = b :: bs →
    b.extractLsb' 4 4 ∈ [0b0010#4, 0b0011#4] → b.extractLsb' 1 3 ≠ 0 → step s = .refused .mustBeZeroBitSet) ∧
  (∀ (b : Byte) (bs : List Byte) (s : State), s.input = 0x90 :: b :: bs →
    (b.extractLsb' 4 4 ≠ 0 ∨ 9 < (b.extractLsb' 0 4).toNat) → step s = .refused .reservedStoreLength) ∧
  (∀ (bs : List Byte) (s : State), s.input = 0x50 :: bs → bs.length < 4 → step s = .refused .truncatedEvent) ∧
  (∀ s : State, s.input = [0x90] → step s = .refused .truncatedEvent) ∧
  (∀ (b : Byte) (bs : List Byte) (s : State), s.input = 0x90 :: b :: bs → b.toNat ≤ 9 → bs.length < 4 * b.toNat →
    step s = .refused .truncatedEvent)

/-- 95_test_vectors.md section 2.4, written out bit by bit: one word of every event decodes to what it stands for. -/
def Obligations.SpecWordsDecodeToTheirEvents : Prop :=
  decode [0b00010000#8] = .event .activate [] ∧
  decode [0b00100000#8] = .event (.edgeA .low) [] ∧
  decode [0b00100001#8] = .event (.edgeA .high) [] ∧
  decode [0b00110000#8] = .event (.edgeB .low) [] ∧
  decode [0b00110001#8] = .event (.edgeB .high) [] ∧
  decode [0b01000000#8] = .event .read [] ∧
  decode [0b01010000#8, 0xFB#8, 0xFF#8, 0xFF#8, 0xFF#8] = .event (.write (-5)) [] ∧
  decode [0b10000000#8] = .event .initMedium [] ∧
  decode [0b10010000#8, 0b00000001#8, 0x60#8, 0x27#8, 0xAC#8, 0x08#8] = .event (.store [145500000]) [] ∧
  decode [0b10100000#8] = .event .recallFreqs [] ∧
  decode [0b11110000#8] = .event .reset []

/-- R10, R59: when the head of the stream decodes to an event, one step is that event's rule on the state with the
event's bytes taken off the stream; with no event there a step changes nothing (log entry 1). -/
def Obligations.StepRunsTheDecodedEvent : Prop :=
  (∀ (s : State) (i : Instr) (rest : List Byte), decode s.input = .event i rest →
    step s = exec i { s with input := rest }) ∧
  (∀ s : State, s.input = [] → step s = .next s)

/-- The host's way in (log entry 16): an opcode-table word that decodes is exactly what the very next step runs. -/
def Obligations.ATableWordRunsAsTheNextEvent : Prop :=
  ∀ (nbits w : Nat) (i : Instr) (s : State), decodeTableWord nbits w = some i →
    i.wf = true ∧ step (s.withFetchWord nbits w) = exec i s

/-- R68: decoding a trace's byte stream and stepping through it gives what applying the event tuples gives, whatever
follows in the stream. -/
def Obligations.TheByteStreamRunsAsItsEventTuples : Prop :=
  ∀ (es : List Instr) (rest : List Byte) (s : State), (∀ i ∈ es, i.wf = true) →
    runSteps es.length { s with input := encodeTrace es ++ rest } = runEvents es { s with input := rest }

/-- R72: a trace printed one event per line reads back as the same events. -/
def Obligations.TraceTextReadsBack : Prop :=
  ∀ es : List Instr, (∀ i ∈ es, i.wf = true) → readTrace (traceText es) = some es

/-! ### The invariant -/

/-- Every step from a state that meets the invariant ends in one that meets it: parameters and pins stay legal, the
medium canonical and in its bounds (R40), nothing uncommitted between events (R35), every response and medium operation
legal (R112, R48). -/
def Obligations.EveryStepKeepsTheInvariant : Prop :=
  ∀ s t : State, s.Inv → step s = .next t → t.Inv

/-- The state every run starts in meets the invariant (its medium and pins are log entries 6 and 7). -/
def Obligations.TheResetStateMeetsTheInvariant : Prop :=
  State.reset.Inv
end

