-- ==== Sys2Proof/Laws/Decode.lean ====
section
/-!
SUPPORT. The fields of byte 0, the opcode map in both directions, and the operand values as bytes and back.
-/

namespace Sys2Proof

@[simp] theorem opcField_append (o s : BitVec 4) : opcField (o ++ s) = o := by
  apply BitVec.eq_of_getLsbD_eq
  intro i hi
  have h : (o ++ s : BitVec (4 + 4)).getLsbD (4 + i) = o.getLsbD i := by
    rw [BitVec.getLsbD_append]
    simp
  simp only [opcField, BitVec.getLsbD_extractLsb', hi, decide_true, Bool.true_and]
  exact h

@[simp] theorem lowNibble_append (o s : BitVec 4) : lowNibble (o ++ s) = s := by
  apply BitVec.eq_of_getLsbD_eq
  intro i hi
  have h : (o ++ s : BitVec (4 + 4)).getLsbD (0 + i) = s.getLsbD i := by
    rw [BitVec.getLsbD_append]
    simp [hi]
  simp only [lowNibble, BitVec.getLsbD_extractLsb', hi, decide_true, Bool.true_and]
  exact h

/-- A byte is its two nibbles (R61). -/
theorem append_fields (b : Byte) : opcField b ++ lowNibble b = b := by
  apply BitVec.eq_of_getLsbD_eq
  intro i hi
  simp only [opcField, lowNibble, BitVec.getLsbD_append, BitVec.getLsbD_extractLsb']
  by_cases h : i < 4
  · simp [h]
  · have h4 : i - 4 < 4 := by omega
    simp [h, h4, show 4 + (i - 4) = i by omega]

/-- The map of R62 gives each event's opcode back. -/
@[simp] theorem opcodeOf_code (o : Opcode) : opcodeOf o.code = some o := by cases o <;> decide

/-- The map of R62 gives an event only for its own opcode. -/
theorem code_of_opcodeOf {c : BitVec 4} {o : Opcode} (h : opcodeOf c = some o) : o.code = c := by
  have := List.find?_some h
  simpa using this

theorem leBytes_le32 (b0 b1 b2 b3 : Byte) : leBytes (le32 b0 b1 b2 b3) = [b0, b1, b2, b3] := by
  have key : ∀ k : Nat, ∀ b : Byte, (∀ i, i < 8 → (le32 b0 b1 b2 b3).getLsbD (k + i) = b.getLsbD i) →
      (le32 b0 b1 b2 b3).extractLsb' k 8 = b := by
    intro k b h
    apply BitVec.eq_of_getLsbD_eq
    intro i hi
    simp [hi, h i hi]
  simp only [leBytes]
  rw [key 0 b0, key 8 b1, key 16 b2, key 24 b3] <;> intro i hi <;>
    simp only [le32, BitVec.getLsbD_append]
  · simp [show 24 + i - 8 - 8 - 8 = i by omega, show ¬ 24 + i < 8 by omega, show ¬ 24 + i - 8 < 8 by omega,
      show ¬ 24 + i - 8 - 8 < 8 by omega]
  · simp [show 16 + i - 8 - 8 = i by omega, show ¬ 16 + i < 8 by omega, show ¬ 16 + i - 8 < 8 by omega, hi]
  · simp [show 8 + i - 8 = i by omega, show ¬ 8 + i < 8 by omega, hi]
  · simp [hi]

/-- The bytes of a value are read back as the value (R47). -/
theorem le32_bytes (v : Word) :
    le32 (v.extractLsb' 0 8) (v.extractLsb' 8 8) (v.extractLsb' 16 8) (v.extractLsb' 24 8) = v := by
  apply BitVec.eq_of_getLsbD_eq
  intro i hi
  simp only [le32, BitVec.getLsbD_append, BitVec.getLsbD_extractLsb']
  by_cases h1 : i < 8
  · simp [h1]
  · by_cases h2 : i < 16
    · have : i - 8 < 8 := by omega
      simp [h1, this, show 8 + (i - 8) = i by omega]
    · by_cases h3 : i < 24
      · have a1 : ¬ i - 8 < 8 := by omega
        have a2 : i - 8 - 8 < 8 := by omega
        simp [h1, a1, a2, show 16 + (i - 8 - 8) = i by omega]
      · have a1 : ¬ i - 8 < 8 := by omega
        have a2 : ¬ i - 8 - 8 < 8 := by omega
        have a3 : i - 8 - 8 - 8 < 8 := by omega
        simp [h1, a1, a2, a3, show 24 + (i - 8 - 8 - 8) = i by omega]

theorem length_flatMap_leBytes (vs : List Word) : (vs.flatMap leBytes).length = 4 * vs.length := by
  induction vs with
  | nil => rfl
  | cons v rest ih =>
    simp only [List.flatMap_cons, List.length_append, ih, List.length_cons, leBytes, List.length_nil]
    omega

/-- What the operand reader takes is the bytes of what it gives (R65). -/
theorem takeWords_some {n : Nat} {bs rest : List Byte} {vs : List Word} (h : takeWords n bs = some (vs, rest)) :
    vs.length = n ∧ bs = vs.flatMap leBytes ++ rest := by
  induction n generalizing bs vs with
  | zero =>
    simp only [takeWords, Option.some.injEq, Prod.mk.injEq] at h
    obtain ⟨rfl, rfl⟩ := h
    exact ⟨rfl, rfl⟩
  | succ n ih =>
    match bs with
    | b0 :: b1 :: b2 :: b3 :: bs =>
      simp only [takeWords] at h
      split at h
      · rename_i ws r hw
        simp only [Option.some.injEq, Prod.mk.injEq] at h
        obtain ⟨rfl, rfl⟩ := h
        obtain ⟨hlen, hbs⟩ := ih hw
        refine ⟨by simp [hlen], ?_⟩
        rw [List.flatMap_cons, leBytes_le32, hbs]
        rfl
      · simp at h
    | [] => simp [takeWords] at h
    | [_] => simp [takeWords] at h
    | [_, _] => simp [takeWords] at h
    | [_, _, _] => simp [takeWords] at h

/-- Too few bytes for `n` values (R70 (d)). -/
theorem takeWords_none {n : Nat} {bs : List Byte} (h : bs.length < 4 * n) : takeWords n bs = none := by
  match ht : takeWords n bs with
  | none => rfl
  | some (vs, rest) =>
    obtain ⟨hlen, hbs⟩ := takeWords_some ht
    have := congrArg List.length hbs
    rw [List.length_append, length_flatMap_leBytes] at this
    omega

/-- Reading back `n` values from their bytes (R65). -/
theorem takeWords_leBytes (vs : List Word)
    (rest : List Byte) : takeWords vs.length (vs.flatMap leBytes ++ rest) = some (vs, rest) := by
  induction vs with
  | nil => rfl
  | cons v vs ih =>
    show takeWords (vs.length + 1) _ = _
    rw [List.flatMap_cons]
    simp only [leBytes, List.cons_append, List.nil_append, takeWords]
    simp only [ih, le32_bytes]

end Sys2Proof
end

