-- ==== Sys2Proof/Laws/Memory.lean ====
section
/-!
SUPPORT. The medium: read after write, the canonical form and its bounds are kept, equal bytes mean equal lists, and
the 32-bit value of four bytes.
-/

namespace Sys2Proof.Machine

theorem Memory.above_mono {m : Memory} {lo hi : Nat} (h : Memory.above m hi = true) (hle : lo ≤ hi) :
    Memory.above m lo = true := by
  simp only [Memory.above, List.all_eq_true, decide_eq_true_eq] at *
  intro c hc
  have := h c hc
  omega

/-- Below every listed offset a medium holds the unlisted byte. -/
theorem Memory.read_of_above {m : Memory} {lo a : Nat} (h : Memory.above m lo = true) (ha : a ≤ lo) :
    Memory.read m a = unlistedByte := by
  induction m with
  | nil => rfl
  | cons c rest ih =>
    obtain ⟨k, v⟩ := c
    simp only [Memory.above, List.all_cons, Bool.and_eq_true, decide_eq_true_eq] at h
    have hne : k ≠ a := by omega
    simp only [Memory.read, hne, if_false]
    exact ih h.2

theorem Memory.wf_cons {k : Nat} {v : Byte} {rest : Memory} (h : Memory.wf ((k, v) :: rest) = true) :
    v ≠ unlistedByte ∧ Memory.above rest k = true ∧ Memory.wf rest = true := by
  simpa [Memory.wf, and_assoc] using h

theorem Memory.wf_of_cons {k : Nat} {v : Byte} {rest : Memory} (hv : v ≠ unlistedByte)
    (ha : Memory.above rest k = true) (hw : Memory.wf rest = true) : Memory.wf ((k, v) :: rest) = true := by
  simp [Memory.wf, hv, ha, hw]

theorem Memory.read_write_same {m : Memory} (hm : Memory.wf m = true) (a : Nat) (v : Byte) :
    Memory.read (Memory.write m a v) a = v := by
  induction m with
  | nil =>
    by_cases hv : v = unlistedByte
    · simp [Memory.write, hv, Memory.read]
    · simp [Memory.write, hv, Memory.read]
  | cons c rest ih =>
    obtain ⟨k, w⟩ := c
    obtain ⟨hw, habove, hrest⟩ := Memory.wf_cons hm
    by_cases hv : v = unlistedByte
    · by_cases h1 : a < k
      · have hne : k ≠ a := by omega
        simp only [Memory.write, h1, hv, if_true, Memory.read, hne, if_false]
        exact Memory.read_of_above habove (by omega)
      · by_cases h2 : a = k
        · subst h2
          simp only [Memory.write, hv, if_true, Nat.lt_irrefl, if_false]
          exact Memory.read_of_above habove (Nat.le_refl _)
        · have hne : k ≠ a := fun h => h2 h.symm
          simp only [Memory.write, h1, h2, if_false, Memory.read, hne]
          exact ih hrest
    · by_cases h1 : a < k
      · simp [Memory.write, h1, hv, Memory.read]
      · by_cases h2 : a = k
        · simp [Memory.write, h2, hv, Memory.read]
        · have hne : k ≠ a := fun h => h2 h.symm
          simp only [Memory.write, h1, h2, if_false, Memory.read, hne]
          exact ih hrest

theorem Memory.read_write_other (m : Memory) {a b : Nat} (v : Byte) (hab : b ≠ a) :
    Memory.read (Memory.write m a v) b = Memory.read m b := by
  have hba : a ≠ b := hab.symm
  induction m with
  | nil =>
    by_cases hv : v = unlistedByte
    · simp [Memory.write, hv]
    · simp [Memory.write, hv, Memory.read, hba]
  | cons c rest ih =>
    obtain ⟨k, w⟩ := c
    by_cases h1 : a < k
    · by_cases hv : v = unlistedByte
      · simp [Memory.write, h1, hv]
      · simp [Memory.write, h1, hv, Memory.read, hba]
    · by_cases h2 : a = k
      · have hkb : k ≠ b := h2 ▸ hba
        by_cases hv : v = unlistedByte
        · simp [Memory.write, h2, hv, Memory.read, hkb]
        · simp [Memory.write, h2, hv, Memory.read, hkb]
      · simp only [Memory.write, h1, h2, if_false, Memory.read, ih]

/-- What a write can leave in the list. -/
theorem Memory.mem_write {m : Memory} {a : Nat} {v : Byte} {c : Host.Cell} (h : c ∈ Memory.write m a v) :
    c ∈ m ∨ c = (a, v) := by
  induction m with
  | nil =>
    by_cases hv : v = unlistedByte
    · simp [Memory.write, hv] at h
    · simpa [Memory.write, hv] using h
  | cons d rest ih =>
    obtain ⟨k, w⟩ := d
    simp only [Memory.write] at h
    split at h
    · split at h
      · exact .inl h
      · exact (List.mem_cons.mp h).symm
    · split at h
      · split at h
        · exact .inl (List.mem_cons_of_mem _ h)
        · exact (List.mem_cons.mp h).symm.imp_left (List.mem_cons_of_mem _)
      · obtain rfl | h := List.mem_cons.mp h
        · exact .inl List.mem_cons_self
        · exact (ih h).imp_left (List.mem_cons_of_mem _)

theorem Memory.above_write {m : Memory} {lo a : Nat} (v : Byte) (h : Memory.above m lo = true) (ha : lo < a) :
    Memory.above (Memory.write m a v) lo = true := by
  simp only [Memory.above, List.all_eq_true, decide_eq_true_eq] at *
  intro c hc
  obtain hc | rfl := Memory.mem_write hc
  · exact h c hc
  · exact ha

theorem Memory.wf_write {m : Memory} (hm : Memory.wf m = true) (a : Nat) (v : Byte) :
    Memory.wf (Memory.write m a v) = true := by
  induction m with
  | nil =>
    by_cases hv : v = unlistedByte
    · simp [Memory.write, hv, Memory.wf]
    · simp [Memory.write, hv, Memory.wf, Memory.above]
  | cons c rest ih =>
    obtain ⟨k, w⟩ := c
    obtain ⟨hw, habove, hrest⟩ := Memory.wf_cons hm
    by_cases h1 : a < k
    · by_cases hv : v = unlistedByte
      · simpa [Memory.write, h1, hv] using hm
      · simp only [Memory.write, h1, hv, if_true, if_false]
        refine Memory.wf_of_cons hv ?_ hm
        have := Memory.above_mono habove (Nat.le_of_lt h1)
        simp only [Memory.above, List.all_cons, Bool.and_eq_true, decide_eq_true_eq] at this ⊢
        exact ⟨h1, this⟩
    · by_cases h2 : a = k
      · by_cases hv : v = unlistedByte
        · simpa [Memory.write, h2, hv] using hrest
        · simp only [Memory.write, h2, hv, if_true, if_false, Nat.lt_irrefl]
          exact Memory.wf_of_cons hv habove hrest
      · simp only [Memory.write, h1, h2, if_false]
        exact Memory.wf_of_cons hw (Memory.above_write v habove (by omega)) (ih hrest)

theorem Memory.within_write {m : Memory} {size a : Nat} (v : Byte) (h : Memory.within m size = true) (ha : a < size) :
    Memory.within (Memory.write m a v) size = true := by
  simp only [Memory.within, List.all_eq_true, decide_eq_true_eq] at *
  intro c hc
  obtain hc | rfl := Memory.mem_write hc
  · exact h c hc
  · exact ha

/-! ### Several bytes -/

theorem Memory.wf_writeBytes {m : Memory} (hm : Memory.wf m = true) (off : Nat) (bs : List Byte) :
    Memory.wf (Memory.writeBytes m off bs) = true := by
  induction bs generalizing m off with
  | nil => exact hm
  | cons b rest ih => exact ih (Memory.wf_write hm off b) (off + 1)

theorem Memory.within_writeBytes {m : Memory} {size off : Nat} {bs : List Byte} (hm : Memory.within m size = true)
    (h : off + bs.length ≤ size) : Memory.within (Memory.writeBytes m off bs) size = true := by
  induction bs generalizing m off with
  | nil => exact hm
  | cons b rest ih =>
    simp only [List.length_cons] at h
    exact ih (Memory.within_write b hm (by omega)) (by omega)

theorem Memory.read_writeBytes_outside (m : Memory) {off a : Nat} (bs : List Byte)
    (h : a < off ∨ off + bs.length ≤ a) : Memory.read (Memory.writeBytes m off bs) a = Memory.read m a := by
  induction bs generalizing m off with
  | nil => rfl
  | cons b rest ih =>
    simp only [List.length_cons] at h
    have hne : a ≠ off := by omega
    exact (ih (Memory.write m off b) (by omega)).trans (Memory.read_write_other m b hne)

theorem Memory.wf_write32 {m : Memory} (hm : Memory.wf m = true) (off : Nat) (v : Word) :
    Memory.wf (Memory.write32 m off v) = true := Memory.wf_writeBytes hm off _

theorem Memory.within_write32 {m : Memory} {size off : Nat} (v : Word) (hm : Memory.within m size = true)
    (h : off + 4 ≤ size) : Memory.within (Memory.write32 m off v) size = true :=
  Memory.within_writeBytes hm (by simpa [leBytes] using h)

theorem Memory.read_write32_outside (m : Memory) {off a : Nat} (v : Word) (h : a < off ∨ off + 4 ≤ a) :
    Memory.read (Memory.write32 m off v) a = Memory.read m a :=
  Memory.read_writeBytes_outside m _ (by simpa [leBytes] using h)

/-- The four bytes a put leaves at its offset (R47). -/
theorem Memory.read_write32_bytes {m : Memory} (hm : Memory.wf m = true) (off : Nat) (v : Word) :
    Memory.read (Memory.write32 m off v) off = v.extractLsb' 0 8 ∧
    Memory.read (Memory.write32 m off v) (off + 1) = v.extractLsb' 8 8 ∧
    Memory.read (Memory.write32 m off v) (off + 2) = v.extractLsb' 16 8 ∧
    Memory.read (Memory.write32 m off v) (off + 3) = v.extractLsb' 24 8 := by
  have h0 := Memory.wf_write hm off (v.extractLsb' 0 8)
  have h1 := Memory.wf_write h0 (off + 1) (v.extractLsb' 8 8)
  have h2 := Memory.wf_write h1 (off + 2) (v.extractLsb' 16 8)
  simp only [Memory.write32, leBytes, Memory.writeBytes]
  refine ⟨?_, ?_, ?_, ?_⟩
  · rw [Memory.read_write_other _ _ (by omega), Memory.read_write_other _ _ (by omega),
      Memory.read_write_other _ _ (by omega), Memory.read_write_same hm]
  · rw [Memory.read_write_other _ _ (by omega), Memory.read_write_other _ _ (by omega), Memory.read_write_same h0]
  · rw [Memory.read_write_other _ _ (by omega), Memory.read_write_same h1]
  · exact Memory.read_write_same h2 _ _

/-- A get after a put at the same offset returns the value put (R44, R45). -/
theorem Memory.read32_write32_same {m : Memory} (hm : Memory.wf m = true) (off : Nat) (v : Word) :
    Memory.read32 (Memory.write32 m off v) off = v := by
  obtain ⟨h0, h1, h2, h3⟩ := Memory.read_write32_bytes hm off v
  simp only [Memory.read32, h0, h1, h2, h3, le32_bytes]

/-- A get of four other bytes is not changed by a put. -/
theorem Memory.read32_write32_other (m : Memory) {off off' : Nat} (v : Word) (h : off' + 4 ≤ off ∨ off + 4 ≤ off') :
    Memory.read32 (Memory.write32 m off v) off' = Memory.read32 m off' := by
  simp only [Memory.read32]
  rw [Memory.read_write32_outside m v (by omega), Memory.read_write32_outside m v (by omega),
    Memory.read_write32_outside m v (by omega), Memory.read_write32_outside m v (by omega)]

/-- Two media that agree on a slot's bytes agree on its value. -/
theorem Memory.read32_congr {m n : Memory} {off : Nat}
    (h : ∀ a, off ≤ a → a < off + 4 →
        Memory.read m a = Memory.read n a) : Memory.read32 m off = Memory.read32 n off := by
  simp only [Memory.read32]
  rw [h off (by omega) (by omega), h (off + 1) (by omega) (by omega), h (off + 2) (by omega) (by omega),
    h (off + 3) (by omega) (by omega)]

/-- The medium a run starts with is in canonical form and on the medium. -/
theorem Memory.wf_reset : Memory.wf State.reset.medium = true ∧ Memory.wf State.reset.durable = true ∧
    Memory.within State.reset.medium State.reset.params.mediumSize = true := ⟨rfl, rfl, rfl⟩

end Sys2Proof.Machine
end

