-- ==== Sys2Proof/Laws/State.lean ====
section
/-!
SUPPORT. What each named operation does to each field of State, one lemma per field and operation.
-/

namespace Sys2Proof.Machine

@[simp] theorem State.withClassified_lvlA (s : State)
    (r : DState × Position) : (s.withClassified r).lvlA = s.lvlA := rfl
@[simp] theorem State.withClassified_lvlB (s : State)
    (r : DState × Position) : (s.withClassified r).lvlB = s.lvlB := rfl
@[simp] theorem State.withClassified_dstate (s : State)
    (r : DState × Position) : (s.withClassified r).dstate = r.1 := rfl
@[simp] theorem State.withClassified_pos (s : State) (r : DState × Position) : (s.withClassified r).pos = r.2 := rfl
@[simp] theorem State.withClassified_armed (s : State)
    (r : DState × Position) : (s.withClassified r).armed = s.armed := rfl
@[simp] theorem State.withClassified_medReady (s : State)
    (r : DState × Position) : (s.withClassified r).medReady = s.medReady := rfl
@[simp] theorem State.withClassified_pinA (s : State)
    (r : DState × Position) : (s.withClassified r).pinA = s.pinA := rfl
@[simp] theorem State.withClassified_pinB (s : State)
    (r : DState × Position) : (s.withClassified r).pinB = s.pinB := rfl
@[simp] theorem State.withClassified_params (s : State)
    (r : DState × Position) : (s.withClassified r).params = s.params := rfl
@[simp] theorem State.withClassified_medium (s : State)
    (r : DState × Position) : (s.withClassified r).medium = s.medium := rfl
@[simp] theorem State.withClassified_durable (s : State)
    (r : DState × Position) : (s.withClassified r).durable = s.durable := rfl
@[simp] theorem State.withClassified_input (s : State)
    (r : DState × Position) : (s.withClassified r).input = s.input := rfl
@[simp] theorem State.withClassified_responses (s : State)
    (r : DState × Position) : (s.withClassified r).responses = s.responses := rfl
@[simp] theorem State.withClassified_mediumPort (s : State)
    (r : DState × Position) : (s.withClassified r).mediumPort = s.mediumPort := rfl

@[simp] theorem State.withPos_lvlA (s : State) (n : Position) : (s.withPos n).lvlA = s.lvlA := rfl
@[simp] theorem State.withPos_lvlB (s : State) (n : Position) : (s.withPos n).lvlB = s.lvlB := rfl
@[simp] theorem State.withPos_dstate (s : State) (n : Position) : (s.withPos n).dstate = s.dstate := rfl
@[simp] theorem State.withPos_pos (s : State) (n : Position) : (s.withPos n).pos = n := rfl
@[simp] theorem State.withPos_armed (s : State) (n : Position) : (s.withPos n).armed = s.armed := rfl
@[simp] theorem State.withPos_medReady (s : State) (n : Position) : (s.withPos n).medReady = s.medReady := rfl
@[simp] theorem State.withPos_pinA (s : State) (n : Position) : (s.withPos n).pinA = s.pinA := rfl
@[simp] theorem State.withPos_pinB (s : State) (n : Position) : (s.withPos n).pinB = s.pinB := rfl
@[simp] theorem State.withPos_params (s : State) (n : Position) : (s.withPos n).params = s.params := rfl
@[simp] theorem State.withPos_medium (s : State) (n : Position) : (s.withPos n).medium = s.medium := rfl
@[simp] theorem State.withPos_durable (s : State) (n : Position) : (s.withPos n).durable = s.durable := rfl
@[simp] theorem State.withPos_input (s : State) (n : Position) : (s.withPos n).input = s.input := rfl
@[simp] theorem State.withPos_responses (s : State) (n : Position) : (s.withPos n).responses = s.responses := rfl
@[simp] theorem State.withPos_mediumPort (s : State) (n : Position) : (s.withPos n).mediumPort = s.mediumPort := rfl

@[simp] theorem State.arm_lvlA (s : State) : s.arm.lvlA = s.lvlA := rfl
@[simp] theorem State.arm_lvlB (s : State) : s.arm.lvlB = s.lvlB := rfl
@[simp] theorem State.arm_dstate (s : State) : s.arm.dstate = s.dstate := rfl
@[simp] theorem State.arm_pos (s : State) : s.arm.pos = s.pos := rfl
@[simp] theorem State.arm_armed (s : State) : s.arm.armed = true := rfl
@[simp] theorem State.arm_medReady (s : State) : s.arm.medReady = s.medReady := rfl
@[simp] theorem State.arm_pinA (s : State) : s.arm.pinA = s.pinA := rfl
@[simp] theorem State.arm_pinB (s : State) : s.arm.pinB = s.pinB := rfl
@[simp] theorem State.arm_params (s : State) : s.arm.params = s.params := rfl
@[simp] theorem State.arm_medium (s : State) : s.arm.medium = s.medium := rfl
@[simp] theorem State.arm_durable (s : State) : s.arm.durable = s.durable := rfl
@[simp] theorem State.arm_input (s : State) : s.arm.input = s.input := rfl
@[simp] theorem State.arm_responses (s : State) : s.arm.responses = s.responses := rfl
@[simp] theorem State.arm_mediumPort (s : State) : s.arm.mediumPort = s.mediumPort := rfl

@[simp] theorem State.ready_lvlA (s : State) : s.ready.lvlA = s.lvlA := rfl
@[simp] theorem State.ready_lvlB (s : State) : s.ready.lvlB = s.lvlB := rfl
@[simp] theorem State.ready_dstate (s : State) : s.ready.dstate = s.dstate := rfl
@[simp] theorem State.ready_pos (s : State) : s.ready.pos = s.pos := rfl
@[simp] theorem State.ready_armed (s : State) : s.ready.armed = s.armed := rfl
@[simp] theorem State.ready_medReady (s : State) : s.ready.medReady = true := rfl
@[simp] theorem State.ready_pinA (s : State) : s.ready.pinA = s.pinA := rfl
@[simp] theorem State.ready_pinB (s : State) : s.ready.pinB = s.pinB := rfl
@[simp] theorem State.ready_params (s : State) : s.ready.params = s.params := rfl
@[simp] theorem State.ready_medium (s : State) : s.ready.medium = s.medium := rfl
@[simp] theorem State.ready_durable (s : State) : s.ready.durable = s.durable := rfl
@[simp] theorem State.ready_input (s : State) : s.ready.input = s.input := rfl
@[simp] theorem State.ready_responses (s : State) : s.ready.responses = s.responses := rfl
@[simp] theorem State.ready_mediumPort (s : State) : s.ready.mediumPort = s.mediumPort := rfl

@[simp] theorem State.respond_lvlA (s : State) (r : Response) : (s.respond r).lvlA = s.lvlA := rfl
@[simp] theorem State.respond_lvlB (s : State) (r : Response) : (s.respond r).lvlB = s.lvlB := rfl
@[simp] theorem State.respond_dstate (s : State) (r : Response) : (s.respond r).dstate = s.dstate := rfl
@[simp] theorem State.respond_pos (s : State) (r : Response) : (s.respond r).pos = s.pos := rfl
@[simp] theorem State.respond_armed (s : State) (r : Response) : (s.respond r).armed = s.armed := rfl
@[simp] theorem State.respond_medReady (s : State) (r : Response) : (s.respond r).medReady = s.medReady := rfl
@[simp] theorem State.respond_pinA (s : State) (r : Response) : (s.respond r).pinA = s.pinA := rfl
@[simp] theorem State.respond_pinB (s : State) (r : Response) : (s.respond r).pinB = s.pinB := rfl
@[simp] theorem State.respond_params (s : State) (r : Response) : (s.respond r).params = s.params := rfl
@[simp] theorem State.respond_medium (s : State) (r : Response) : (s.respond r).medium = s.medium := rfl
@[simp] theorem State.respond_durable (s : State) (r : Response) : (s.respond r).durable = s.durable := rfl
@[simp] theorem State.respond_input (s : State) (r : Response) : (s.respond r).input = s.input := rfl
@[simp] theorem State.respond_responses (s : State) (r : Response) : (s.respond r).responses = s.responses ++ [r] := rfl
@[simp] theorem State.respond_mediumPort (s : State) (r : Response) : (s.respond r).mediumPort = s.mediumPort := rfl

@[simp] theorem State.medGet_lvlA (s : State) (off : Nat) : (s.medGet off).2.lvlA = s.lvlA := rfl
@[simp] theorem State.medGet_lvlB (s : State) (off : Nat) : (s.medGet off).2.lvlB = s.lvlB := rfl
@[simp] theorem State.medGet_dstate (s : State) (off : Nat) : (s.medGet off).2.dstate = s.dstate := rfl
@[simp] theorem State.medGet_pos (s : State) (off : Nat) : (s.medGet off).2.pos = s.pos := rfl
@[simp] theorem State.medGet_armed (s : State) (off : Nat) : (s.medGet off).2.armed = s.armed := rfl
@[simp] theorem State.medGet_medReady (s : State) (off : Nat) : (s.medGet off).2.medReady = s.medReady := rfl
@[simp] theorem State.medGet_pinA (s : State) (off : Nat) : (s.medGet off).2.pinA = s.pinA := rfl
@[simp] theorem State.medGet_pinB (s : State) (off : Nat) : (s.medGet off).2.pinB = s.pinB := rfl
@[simp] theorem State.medGet_params (s : State) (off : Nat) : (s.medGet off).2.params = s.params := rfl
@[simp] theorem State.medGet_medium (s : State) (off : Nat) : (s.medGet off).2.medium = s.medium := rfl
@[simp] theorem State.medGet_durable (s : State) (off : Nat) : (s.medGet off).2.durable = s.durable := rfl
@[simp] theorem State.medGet_input (s : State) (off : Nat) : (s.medGet off).2.input = s.input := rfl
@[simp] theorem State.medGet_responses (s : State) (off : Nat) : (s.medGet off).2.responses = s.responses := rfl
@[simp] theorem State.medGet_mediumPort (s : State)
    (off : Nat) : (s.medGet off).2.mediumPort = s.mediumPort ++ [.get off] := rfl

@[simp] theorem State.medPut_lvlA (s : State) (off : Nat) (v : Word) : (s.medPut off v).lvlA = s.lvlA := rfl
@[simp] theorem State.medPut_lvlB (s : State) (off : Nat) (v : Word) : (s.medPut off v).lvlB = s.lvlB := rfl
@[simp] theorem State.medPut_dstate (s : State) (off : Nat) (v : Word) : (s.medPut off v).dstate = s.dstate := rfl
@[simp] theorem State.medPut_pos (s : State) (off : Nat) (v : Word) : (s.medPut off v).pos = s.pos := rfl
@[simp] theorem State.medPut_armed (s : State) (off : Nat) (v : Word) : (s.medPut off v).armed = s.armed := rfl
@[simp] theorem State.medPut_medReady (s : State) (off : Nat) (v : Word) : (s.medPut off v).medReady = s.medReady := rfl
@[simp] theorem State.medPut_pinA (s : State) (off : Nat) (v : Word) : (s.medPut off v).pinA = s.pinA := rfl
@[simp] theorem State.medPut_pinB (s : State) (off : Nat) (v : Word) : (s.medPut off v).pinB = s.pinB := rfl
@[simp] theorem State.medPut_params (s : State) (off : Nat) (v : Word) : (s.medPut off v).params = s.params := rfl
@[simp] theorem State.medPut_medium (s : State) (off : Nat)
    (v : Word) : (s.medPut off v).medium = Memory.write32 s.medium off v := rfl
@[simp] theorem State.medPut_durable (s : State) (off : Nat) (v : Word) : (s.medPut off v).durable = s.durable := rfl
@[simp] theorem State.medPut_input (s : State) (off : Nat) (v : Word) : (s.medPut off v).input = s.input := rfl
@[simp] theorem State.medPut_responses (s : State) (off : Nat)
    (v : Word) : (s.medPut off v).responses = s.responses := rfl
@[simp] theorem State.medPut_mediumPort (s : State) (off : Nat)
    (v : Word) : (s.medPut off v).mediumPort = s.mediumPort ++ [.put off v] := rfl

@[simp] theorem State.medCommit_lvlA (s : State) : s.medCommit.lvlA = s.lvlA := rfl
@[simp] theorem State.medCommit_lvlB (s : State) : s.medCommit.lvlB = s.lvlB := rfl
@[simp] theorem State.medCommit_dstate (s : State) : s.medCommit.dstate = s.dstate := rfl
@[simp] theorem State.medCommit_pos (s : State) : s.medCommit.pos = s.pos := rfl
@[simp] theorem State.medCommit_armed (s : State) : s.medCommit.armed = s.armed := rfl
@[simp] theorem State.medCommit_medReady (s : State) : s.medCommit.medReady = s.medReady := rfl
@[simp] theorem State.medCommit_pinA (s : State) : s.medCommit.pinA = s.pinA := rfl
@[simp] theorem State.medCommit_pinB (s : State) : s.medCommit.pinB = s.pinB := rfl
@[simp] theorem State.medCommit_params (s : State) : s.medCommit.params = s.params := rfl
@[simp] theorem State.medCommit_medium (s : State) : s.medCommit.medium = s.medium := rfl
@[simp] theorem State.medCommit_durable (s : State) : s.medCommit.durable = s.medium := rfl
@[simp] theorem State.medCommit_input (s : State) : s.medCommit.input = s.input := rfl
@[simp] theorem State.medCommit_responses (s : State) : s.medCommit.responses = s.responses := rfl
@[simp] theorem State.medCommit_mediumPort (s : State) : s.medCommit.mediumPort = s.mediumPort ++ [.commit] := rfl

@[simp] theorem State.withInput_lvlA (s : State) (bs : List Byte) : (s.withInput bs).lvlA = s.lvlA := rfl
@[simp] theorem State.withInput_lvlB (s : State) (bs : List Byte) : (s.withInput bs).lvlB = s.lvlB := rfl
@[simp] theorem State.withInput_dstate (s : State) (bs : List Byte) : (s.withInput bs).dstate = s.dstate := rfl
@[simp] theorem State.withInput_pos (s : State) (bs : List Byte) : (s.withInput bs).pos = s.pos := rfl
@[simp] theorem State.withInput_armed (s : State) (bs : List Byte) : (s.withInput bs).armed = s.armed := rfl
@[simp] theorem State.withInput_medReady (s : State) (bs : List Byte) : (s.withInput bs).medReady = s.medReady := rfl
@[simp] theorem State.withInput_pinA (s : State) (bs : List Byte) : (s.withInput bs).pinA = s.pinA := rfl
@[simp] theorem State.withInput_pinB (s : State) (bs : List Byte) : (s.withInput bs).pinB = s.pinB := rfl
@[simp] theorem State.withInput_params (s : State) (bs : List Byte) : (s.withInput bs).params = s.params := rfl
@[simp] theorem State.withInput_medium (s : State) (bs : List Byte) : (s.withInput bs).medium = s.medium := rfl
@[simp] theorem State.withInput_durable (s : State) (bs : List Byte) : (s.withInput bs).durable = s.durable := rfl
@[simp] theorem State.withInput_input (s : State) (bs : List Byte) : (s.withInput bs).input = bs := rfl
@[simp] theorem State.withInput_responses (s : State) (bs : List Byte) : (s.withInput bs).responses = s.responses := rfl
@[simp] theorem State.withInput_mediumPort (s : State)
    (bs : List Byte) : (s.withInput bs).mediumPort = s.mediumPort := rfl

@[simp] theorem resetBlock_lvlA (s : State) : (resetBlock s).lvlA = Defaults.level := rfl
@[simp] theorem resetBlock_lvlB (s : State) : (resetBlock s).lvlB = Defaults.level := rfl
@[simp] theorem resetBlock_dstate (s : State) : (resetBlock s).dstate = .idle := rfl
@[simp] theorem resetBlock_pos (s : State) : (resetBlock s).pos = Defaults.pos := rfl
@[simp] theorem resetBlock_armed (s : State) : (resetBlock s).armed = Defaults.armed := rfl
@[simp] theorem resetBlock_medReady (s : State) : (resetBlock s).medReady = Defaults.medReady := rfl
@[simp] theorem resetBlock_pinA (s : State) : (resetBlock s).pinA = s.pinA := rfl
@[simp] theorem resetBlock_pinB (s : State) : (resetBlock s).pinB = s.pinB := rfl
@[simp] theorem resetBlock_params (s : State) : (resetBlock s).params = s.params := rfl
@[simp] theorem resetBlock_medium (s : State) : (resetBlock s).medium = s.medium := rfl
@[simp] theorem resetBlock_durable (s : State) : (resetBlock s).durable = s.durable := rfl
@[simp] theorem resetBlock_input (s : State) : (resetBlock s).input = s.input := rfl
@[simp] theorem resetBlock_responses (s : State) : (resetBlock s).responses = s.responses := rfl
@[simp] theorem resetBlock_mediumPort (s : State) : (resetBlock s).mediumPort = s.mediumPort := rfl

@[simp] theorem State.withLevel_dstate (s : State) (line : Line)
    (l : Level) : (s.withLevel line l).dstate = s.dstate := by cases line <;> rfl
@[simp] theorem State.withLevel_pos (s : State) (line : Line)
    (l : Level) : (s.withLevel line l).pos = s.pos := by cases line <;> rfl
@[simp] theorem State.withLevel_armed (s : State) (line : Line)
    (l : Level) : (s.withLevel line l).armed = s.armed := by cases line <;> rfl
@[simp] theorem State.withLevel_medReady (s : State) (line : Line)
    (l : Level) : (s.withLevel line l).medReady = s.medReady := by cases line <;> rfl
@[simp] theorem State.withLevel_pinA (s : State) (line : Line)
    (l : Level) : (s.withLevel line l).pinA = s.pinA := by cases line <;> rfl
@[simp] theorem State.withLevel_pinB (s : State) (line : Line)
    (l : Level) : (s.withLevel line l).pinB = s.pinB := by cases line <;> rfl
@[simp] theorem State.withLevel_params (s : State) (line : Line)
    (l : Level) : (s.withLevel line l).params = s.params := by cases line <;> rfl
@[simp] theorem State.withLevel_medium (s : State) (line : Line)
    (l : Level) : (s.withLevel line l).medium = s.medium := by cases line <;> rfl
@[simp] theorem State.withLevel_durable (s : State) (line : Line)
    (l : Level) : (s.withLevel line l).durable = s.durable := by cases line <;> rfl
@[simp] theorem State.withLevel_input (s : State) (line : Line)
    (l : Level) : (s.withLevel line l).input = s.input := by cases line <;> rfl
@[simp] theorem State.withLevel_responses (s : State) (line : Line)
    (l : Level) : (s.withLevel line l).responses = s.responses := by cases line <;> rfl
@[simp] theorem State.withLevel_mediumPort (s : State) (line : Line)
    (l : Level) : (s.withLevel line l).mediumPort = s.mediumPort := by cases line <;> rfl
@[simp] theorem State.withLevel_a_lvlA (s : State) (l : Level) : (s.withLevel .a l).lvlA = l := rfl
@[simp] theorem State.withLevel_a_lvlB (s : State) (l : Level) : (s.withLevel .a l).lvlB = s.lvlB := rfl
@[simp] theorem State.withLevel_b_lvlA (s : State) (l : Level) : (s.withLevel .b l).lvlA = s.lvlA := rfl
@[simp] theorem State.withLevel_b_lvlB (s : State) (l : Level) : (s.withLevel .b l).lvlB = l := rfl

/-- The value a get returns. -/
@[simp] theorem State.medGet_fst (s : State) (off : Nat) : (s.medGet off).1 = Memory.read32 s.medium off := rfl

end Sys2Proof.Machine
end

