-- ==== Sys2Proof/Laws/Ops.lean ====
section
/-!
SUPPORT. One lemma per shared operation that says what it can do: the step of `pos`, the classifier, handler entry, the
loops of `STORE` and `RECALL`.
-/

namespace Sys2Proof.Machine

/-! ### The position and the classifier -/

/-- The increment is modulo 2^32 (D5). -/
theorem posInc_eq (p : Position) : posInc p = p + 1 := by
  simp [posInc, wrap32, BitVec.ofInt_add]

/-- The decrement is modulo 2^32 (D5). -/
theorem posDec_eq (p : Position) : posDec p = p - 1 := by
  rw [posDec, wrap32, Int.sub_eq_add_neg, BitVec.ofInt_add, BitVec.ofInt_toInt, BitVec.sub_eq_add_neg]
  rfl

/-- All the classifier can do to `pos` and to the direction state's counting (R36). -/
theorem classify_cases (c : Params) (d : DState) (a b : Level) (p : Position) :
    (d = .cw1 ∧ a = .low ∧ b = .low ∧ classify c d a b p = (.cw2, p + 1)) ∨
    (d = .ccw1 ∧ a = .low ∧ b = .low ∧ classify c d a b p = (.ccw2, p - 1)) ∨
    ((classify c d a b p).2 = p ∧ ¬(d = .cw1 ∧ (classify c d a b p).1 = .cw2) ∧
      ¬(d = .ccw1 ∧ (classify c d a b p).1 = .ccw2)) := by
  cases d <;> cases a <;> cases b <;> cases hi : c.idleTie <;> cases hg : c.glitchGuard <;>
    simp [classify, classifyIdle, classifyCw1, classifyCw2, classifyCw3, classifyCcw1, classifyCcw2, classifyCcw3,
        hi, hg,
      posInc_eq, posDec_eq]

/-- An armed edge on line A in terms of the classifier (R80). -/
theorem deliverEdge_a_armed {s : State} (h : s.armed = true) (l : Level) :
    deliverEdge .a l s = { s with
      lvlA := l
      dstate := (classify s.params s.dstate l s.lvlB s.pos).1
      pos := (classify s.params s.dstate l s.lvlB s.pos).2 } := by
  simp [deliverEdge, whenArmed, h, handlerEntry, classifyOnce, State.withLevel, State.withClassified]

/-- An armed edge on line B in terms of the classifier (R81). -/
theorem deliverEdge_b_armed {s : State} (h : s.armed = true) (l : Level) :
    deliverEdge .b l s = { s with
      lvlB := l
      dstate := (classify s.params s.dstate s.lvlA l s.pos).1
      pos := (classify s.params s.dstate s.lvlA l s.pos).2 } := by
  simp [deliverEdge, whenArmed, h, handlerEntry, classifyOnce, State.withLevel, State.withClassified]

/-- An edge before `ACTIVATE` (R80, D9). -/
theorem deliverEdge_unarmed {s : State} (h : s.armed = false) (line : Line) (l : Level) : deliverEdge line l s = s := by
  simp [deliverEdge, whenArmed, h]

/-- All an edge can do: it changes no element but the two levels, `dstate` and `pos`. -/
theorem deliverEdge_frame (line : Line) (l : Level) (s : State) :
    ∃ a b d p, deliverEdge line l s = { s with lvlA := a, lvlB := b, dstate := d, pos := p } := by
  by_cases harm : s.armed = true
  · cases line with
    | a => exact ⟨l, s.lvlB, _, _, deliverEdge_a_armed harm l⟩
    | b => exact ⟨s.lvlA, l, _, _, deliverEdge_b_armed harm l⟩
  · exact ⟨s.lvlA, s.lvlB, s.dstate, s.pos, deliverEdge_unarmed (by simpa using harm) line l⟩

/-! ### The lists -/

theorem validPrefix_length_le (c : Params) (vs : List Freq) : (validPrefix c vs).length ≤ 9 := by
  have h1 := (List.takeWhile_prefix (valid c) (l := vs.take Config.nSlots)).length_le
  have h2 := List.length_take_le Config.nSlots vs
  simp only [validPrefix, Config.nSlots] at *
  omega

theorem length_slotsFrom (m : Memory) (n i : Nat) : (slotsFrom m n i).length = n := by
  induction n generalizing i with
  | zero => rfl
  | succ n ih => simp [slotsFrom, ih]

theorem mediumPrefix_length_le (c : Params) (m : Memory) : (mediumPrefix c m).length ≤ 9 := by
  have h1 := (List.takeWhile_prefix (valid c) (l := slotsFrom m Config.nSlots 1)).length_le
  rw [length_slotsFrom] at h1
  exact h1

/-- Every value of a valid prefix is valid (R112). -/
theorem valid_of_mem_takeWhile {c : Params} {vs : List Freq} {v : Freq} (h : v ∈ vs.takeWhile (valid c)) :
    valid c v = true := by
  induction vs with
  | nil => simp at h
  | cons w rest ih =>
    by_cases hw : valid c w = true
    · rw [List.takeWhile_cons_of_pos hw] at h
      obtain rfl | h := List.mem_cons.mp h
      · exact hw
      · exact ih h
    · rw [List.takeWhile_cons_of_neg hw] at h
      simp at h

/-! ### The loop of `STORE` -/

/-- The put that ends the loop early, where it ends early (R106). -/
def sentinelPut (n i k : Nat) : List MediumOp :=
  if k < n then [.put (slotOffset (i + k)) Config.sentinel] else []

theorem sentinelPut_succ (n i k : Nat) : sentinelPut (n + 1) i (k + 1) = sentinelPut n (i + 1) k := by
  simp only [sentinelPut, Nat.add_lt_add_iff_right, show i + (k + 1) = i + 1 + k by omega]

theorem storeLoop_valid {n i : Nat} {v : Freq} {rest : List Freq} {s : State} (h : valid s.params v = true) :
    storeLoop (n + 1) i (v :: rest) s = storeLoop n (i + 1) rest (s.medPut (slotOffset i) v) := by
  simp [storeLoop, h]

theorem storeLoop_invalid {n i : Nat} {v : Freq} {rest : List Freq} {s : State} (h : ¬ valid s.params v = true) :
    storeLoop (n + 1) i (v :: rest) s = s.medPut (slotOffset i) Config.sentinel := by
  simp [storeLoop, h]

/-- The loop changes the medium and the medium port only. -/
theorem storeLoop_frame (n i : Nat) (vs : List Freq) (s : State) :
    storeLoop n i vs s = { s with
      medium := (storeLoop n i vs s).medium
      mediumPort := (storeLoop n i vs s).mediumPort } := by
  induction n generalizing i vs s with
  | zero => rfl
  | succ n ih =>
    match vs with
    | [] => rfl
    | v :: rest =>
      by_cases h : valid s.params v = true
      · rw [storeLoop_valid h, ih]
        rfl
      · rw [storeLoop_invalid h]
        rfl

/-- The puts of the loop, in their order (R108). -/
theorem storeLoop_port (n i : Nat) (vs : List Freq) (s : State) :
    (storeLoop n i vs s).mediumPort = s.mediumPort ++ putsFrom i ((vs.take n).takeWhile (valid s.params)) ++
      sentinelPut n i ((vs.take n).takeWhile (valid s.params)).length := by
  induction n generalizing i vs s with
  | zero => simp [storeLoop, putsFrom, sentinelPut]
  | succ n ih =>
    match vs with
    | [] => simp [storeLoop, putsFrom, sentinelPut]
    | v :: rest =>
      by_cases h : valid s.params v = true
      · rw [storeLoop_valid h, ih]
        simp [h, putsFrom, sentinelPut_succ]
      · rw [storeLoop_invalid h]
        simp [h, putsFrom, sentinelPut]

theorem slotOffset_add (i j : Nat) (hi : 1 ≤ i) : slotOffset (i + j) = slotOffset i + 4 * j := by
  simp only [slotOffset, Config.slotBytes]
  omega

/-- The loop keeps the canonical form. -/
theorem storeLoop_wf (n i : Nat) (vs : List Freq) {s : State} (hm : Memory.wf s.medium = true) :
    Memory.wf (storeLoop n i vs s).medium = true := by
  induction n generalizing i vs s with
  | zero => exact hm
  | succ n ih =>
    match vs with
    | [] => exact Memory.wf_write32 hm _ _
    | v :: rest =>
      by_cases h : valid s.params v = true
      · rw [storeLoop_valid h]
        exact ih (i + 1) rest (Memory.wf_write32 hm _ _)
      · rw [storeLoop_invalid h]
        exact Memory.wf_write32 hm _ _

/-- The loop stays on the medium. -/
theorem storeLoop_within (n i : Nat) (vs : List Freq) {s : State} {size : Nat} (hi : 1 ≤ i)
    (hm : Memory.within s.medium size = true) (hsize : slotOffset (i + n) ≤ size) :
    Memory.within (storeLoop n i vs s).medium size = true := by
  induction n generalizing i vs s with
  | zero => exact hm
  | succ n ih =>
    have hoff := slotOffset_add i (n + 1) hi
    have hput : ∀ v, Memory.within (Memory.write32 s.medium (slotOffset i) v) size = true :=
      fun v => Memory.within_write32 v hm (by omega)
    match vs with
    | [] => exact hput _
    | v :: rest =>
      by_cases h : valid s.params v = true
      · rw [storeLoop_valid h]
        exact ih (i + 1) rest (by omega) (hput v) (by rwa [show i + 1 + n = i + (n + 1) by omega])
      · rw [storeLoop_invalid h]
        exact hput _

/-- Bytes outside the slots the loop puts are as before (R107). -/
theorem storeLoop_read_outside (n i : Nat) (vs : List Freq) (s : State) (hi : 1 ≤ i) {a : Nat}
    (h : a < slotOffset i ∨ slotOffset i + 4 * min (((vs.take n).takeWhile (valid s.params)).length + 1) n ≤ a) :
    Memory.read (storeLoop n i vs s).medium a = Memory.read s.medium a := by
  induction n generalizing i vs s with
  | zero => rfl
  | succ n ih =>
    have hnext := slotOffset_add i 1 hi
    match vs with
    | [] =>
      simp only [storeLoop, State.medPut_medium]
      exact Memory.read_write32_outside _ _ (by simp at h; omega)
    | v :: rest =>
      by_cases hv : valid s.params v = true
      · simp only [List.take_succ_cons, List.takeWhile_cons_of_pos hv, List.length_cons] at h
        rw [storeLoop_valid hv, ih (i + 1) rest (s.medPut (slotOffset i) v) (by omega)
          (by simp only [State.medPut_params]; omega)]
        exact Memory.read_write32_outside _ _ (by omega)
      · simp only [List.take_succ_cons, List.takeWhile_cons_of_neg hv, List.length_nil] at h
        rw [storeLoop_invalid hv]
        exact Memory.read_write32_outside _ _ (by omega)

/-- What the slots hold after the loop: the valid prefix, then the sentinel where the loop ended early (R106). -/
theorem storeLoop_slots (n i : Nat) (vs : List Freq) (s : State) (hi : 1 ≤ i) (hm : Memory.wf s.medium = true) :
    (∀ j, ∀ h : j < ((vs.take n).takeWhile (valid s.params)).length,
      Memory.slot (storeLoop n i vs s).medium (i + j) = ((vs.take n).takeWhile (valid s.params))[j]) ∧
    (((vs.take n).takeWhile (valid s.params)).length < n →
      Memory.slot (storeLoop n i vs s).medium (i + ((vs.take n).takeWhile (valid s.params)).length) =
        Config.sentinel) := by
  induction n generalizing i vs s with
  | zero => simp
  | succ n ih =>
    match vs with
    | [] =>
      refine ⟨by simp, fun _ => ?_⟩
      simp only [List.take_nil, List.takeWhile_nil, List.length_nil, Nat.add_zero, storeLoop, State.medPut_medium]
      exact Memory.read32_write32_same hm _ _
    | v :: rest =>
      by_cases hv : valid s.params v = true
      · obtain ⟨hslots, hsent⟩ := ih (i + 1) rest (s.medPut (slotOffset i) v) (by omega) (Memory.wf_write32 hm _ _)
        simp only [State.medPut_params] at hslots hsent
        simp only [List.take_succ_cons, List.takeWhile_cons_of_pos hv, List.length_cons, storeLoop_valid hv]
        refine ⟨?_, ?_⟩
        · intro j hj
          match j with
          | 0 =>
            simp only [Nat.add_zero, List.getElem_cons_zero, Memory.slot]
            rw [Memory.read32_congr (n := (s.medPut (slotOffset i) v).medium)]
            · exact Memory.read32_write32_same hm _ _
            · intro a _ ha
              have := slotOffset_add i 1 hi
              exact storeLoop_read_outside n (i + 1) rest _ (by omega) (by omega)
          | j + 1 =>
            rw [show i + (j + 1) = i + 1 + j by omega]
            simpa using hslots j (by omega)
        · intro hk
          have h := hsent (by omega)
          rwa [show i + 1 + ((rest.take n).takeWhile (valid s.params)).length =
            i + (((rest.take n).takeWhile (valid s.params)).length + 1) by omega] at h
      · refine ⟨by simp [hv], fun _ => ?_⟩
        simp only [List.take_succ_cons, List.takeWhile_cons_of_neg hv, List.length_nil, Nat.add_zero,
          storeLoop_invalid hv, State.medPut_medium]
        exact Memory.read32_write32_same hm _ _

/-- The loop looks at no value after the first invalid one (R102). -/
theorem storeLoop_validPrefix (n i : Nat) (vs : List Freq) (s : State) :
    storeLoop n i ((vs.take n).takeWhile (valid s.params)) s = storeLoop n i vs s := by
  induction n generalizing i vs s with
  | zero => rfl
  | succ n ih =>
    match vs with
    | [] => rfl
    | v :: rest =>
      by_cases hv : valid s.params v = true
      · rw [List.take_succ_cons, List.takeWhile_cons_of_pos hv, storeLoop_valid hv, storeLoop_valid hv]
        exact ih (i + 1) rest (s.medPut (slotOffset i) v)
      · rw [List.take_succ_cons, List.takeWhile_cons_of_neg hv, storeLoop_invalid hv]
        rfl

/-! ### The loop of `RECALL` -/

/-- All the loop of `RECALL` does: it returns the valid prefix of the slots it scans and issues one get more than that,
or all of them (R110). -/
theorem recallLoop_eq (n i : Nat) (s : State) :
    recallLoop n i s = ((slotsFrom s.medium n i).takeWhile (valid s.params),
      { s with mediumPort := s.mediumPort ++
          getsFrom i (min (((slotsFrom s.medium n i).takeWhile (valid s.params)).length + 1) n) }) := by
  induction n generalizing i s with
  | zero => simp [recallLoop, slotsFrom, getsFrom]
  | succ n ih =>
    by_cases hv : valid s.params (Memory.slot s.medium i) = true
    · have hv' : valid s.params (Memory.read32 s.medium (slotOffset i)) = true := hv
      simp only [recallLoop, State.medGet_fst, hv', if_true, ih, slotsFrom, List.takeWhile_cons_of_pos hv]
      simp [getsFrom, State.medGet, Memory.slot]
    · have hv' : ¬ valid s.params (Memory.read32 s.medium (slotOffset i)) = true := hv
      simp only [recallLoop, State.medGet_fst, hv', slotsFrom, List.takeWhile_cons_of_neg hv]
      simp [getsFrom, State.medGet]

/-- `RECALL` past its gate (R110, R111). -/
theorem recallList_eq (s : State) :
    recallList s = { s with
      responses := s.responses ++ [.frequencies (recallValues s.params (mediumPrefix s.params s.medium))]
      mediumPort := s.mediumPort ++ getsFrom 1 (min ((mediumPrefix s.params s.medium).length + 1) 9) } := by
  simp only [recallList, recallLoop_eq, State.respond]
  rfl

/-! ### What the operations come to -/

/-- The increment on the signed value, with its wrap (D5). -/
theorem toInt_add_one (p : Position) : (p + 1).toInt = if p.toInt = 2147483647 then -2147483648 else p.toInt + 1 := by
  have h1 := p.toInt_lt; have h2 := p.le_toInt
  rw [BitVec.toInt_add]
  simp at *
  split
  · simp [*]
  · rw [Int.bmod_eq_of_le] <;> omega

/-- The decrement on the signed value, with its wrap (D5). -/
theorem toInt_sub_one (p : Position) : (p - 1).toInt = if p.toInt = -2147483648 then 2147483647 else p.toInt - 1 := by
  have h1 := p.toInt_lt; have h2 := p.le_toInt
  rw [BitVec.toInt_sub]
  simp at *
  split
  · simp [*]
  · rw [Int.bmod_eq_of_le] <;> omega

/-- The classifier with the lines exchanged, the direction reversed and IDLE_TIE renamed (R88). -/
theorem classify_mirror (c : Params) (d a b p) :
   classify { c with idleTie := otherTie c.idleTie } (mirrorState d) b a (-p)
    = (mirrorState (classify c d a b p).1, -(classify c d a b p).2) := by
  cases d <;> cases a <;> cases b <;> cases hi : c.idleTie <;> cases hg : c.glitchGuard <;>
    simp [classify, classifyIdle, classifyCw1, classifyCw2, classifyCw3, classifyCcw1, classifyCcw2, classifyCcw3,
        hi, hg,
      posInc_eq, posDec_eq, mirrorState, otherTie] <;> bv_omega

/-- All an edge can do to `pos`, and when it counts (R36). -/
theorem deliverEdge_pos (line l) (s : State) :
  let t := deliverEdge line l s
  (s.dstate = .cw1 ∧ t.dstate = .cw2 ∧ t.pos = s.pos + 1) ∨ (s.dstate = .ccw1 ∧ t.dstate = .ccw2 ∧ t.pos = s.pos - 1) ∨
  (t.pos = s.pos ∧ ¬ (s.dstate = .cw1 ∧ t.dstate = .cw2) ∧ ¬ (s.dstate = .ccw1 ∧ t.dstate = .ccw2)) := by
  by_cases ha : s.armed = true
  · cases line
    · rw [deliverEdge_a_armed ha]
      obtain ⟨h1, h2, h3, h4⟩ | ⟨h1, h2, h3, h4⟩ | h := classify_cases s.params s.dstate l s.lvlB s.pos
      · left; simp only [h4]; exact ⟨h1, trivial, trivial⟩
      · right; left; simp only [h4]; exact ⟨h1, trivial, trivial⟩
      · right; right; exact h
    · rw [deliverEdge_b_armed ha]
      obtain ⟨h1, h2, h3, h4⟩ | ⟨h1, h2, h3, h4⟩ | h := classify_cases s.params s.dstate s.lvlA l s.pos
      · left; simp only [h4]; exact ⟨h1, trivial, trivial⟩
      · right; left; simp only [h4]; exact ⟨h1, trivial, trivial⟩
      · right; right; exact h
  · rw [deliverEdge_unarmed (by simpa using ha)]
    right; right
    refine ⟨rfl, ?_, ?_⟩ <;> rintro ⟨h1, h2⟩ <;> simp_all

/-- An edge depends on and changes nothing but the QDEC elements and the parameters (R7). -/
theorem deliverEdge_congr (line : Line) (l : Level) {s s' : State} (h1 : s'.armed = s.armed) (h2 : s'.lvlA = s.lvlA)
    (h3 : s'.lvlB = s.lvlB)
    (h4 : s'.dstate = s.dstate) (h5 : s'.pos = s.pos) (h6 : s'.params = s.params) :
    deliverEdge line l s' = { s' with
      lvlA := (deliverEdge line l s).lvlA
      lvlB := (deliverEdge line l s).lvlB
      dstate := (deliverEdge line l s).dstate
      pos := (deliverEdge line l s).pos } := by
  by_cases ha : s.armed = true
  · cases line with
    | a => rw [deliverEdge_a_armed ha, deliverEdge_a_armed (h1.trans ha), h3, h4, h5, h6]
    | b => rw [deliverEdge_b_armed ha, deliverEdge_b_armed (h1.trans ha), h2, h4, h5, h6]
  · have ha' : s.armed = false := by simpa using ha
    rw [deliverEdge_unarmed ha', deliverEdge_unarmed (h1.trans ha'), ← h2, ← h3, ← h4, ← h5]

/-- The loop of `STORE` depends on the parameters, the medium and its port only. -/
theorem storeLoop_congr (n i vs) : ∀ (s s' : State), s'.params = s.params → s'.medium = s.medium →
    s'.mediumPort = s.mediumPort →
   (storeLoop n i vs s').medium = (storeLoop n i vs s).medium ∧
       (storeLoop n i vs s').mediumPort = (storeLoop n i vs s).mediumPort := by
  induction n generalizing i vs with
  | zero => intro s s' h1 h2 h3; exact ⟨h2, h3⟩
  | succ n ih =>
    intro s s' h1 h2 h3
    match vs with
    | [] => simp [storeLoop, h2, h3]
    | v :: rest =>
      simp only [storeLoop, h1]
      split
      · exact ih _ _ _ _ h1 (by simp [h2]) (by simp [h3])
      · simp [h2, h3]

/-- `STORE` past its gate changes the medium, what is durable of it, and the medium port. -/
theorem storeList_eq (vs : List Freq) (s : State) :
    storeList vs s = { s with
      medium := (storeLoop 9 1 vs s).medium
      durable := (storeLoop 9 1 vs s).medium
      mediumPort := (storeLoop 9 1 vs s).mediumPort ++ [.commit] } := by
  rw [storeList, storeLoop_frame]
  rfl

/-- What `STORE` leaves depends on the parameters, the medium and its port only. -/
theorem storeList_congr (vs : List Freq) {s s' : State} (hp : s'.params = s.params) (hm : s'.medium = s.medium)
    (ho : s'.mediumPort = s.mediumPort) :
    storeList vs s' = { s' with
      medium := (storeLoop 9 1 vs s).medium
      durable := (storeLoop 9 1 vs s).medium
      mediumPort := (storeLoop 9 1 vs s).mediumPort ++ [.commit] } := by
  obtain ⟨hmedium, hport⟩ := storeLoop_congr 9 1 vs s s' hp hm ho
  rw [storeList_eq, hmedium, hport]

/-- `RECALL`'s values by slot 1 (R110). -/
theorem recallValues_eq (c m) : recallValues c (mediumPrefix c m) = if valid c (Memory.slot m 1) then mediumPrefix c m else [c.default1, c.default2] := by
  by_cases h : valid c (Memory.slot m 1) = true
  · simp [mediumPrefix, Config.nSlots, slotsFrom, h, recallValues]
  · simp [mediumPrefix, Config.nSlots, slotsFrom, h, recallValues]

/-- `RECALL`'s values by the prefix (R110). -/
theorem recallValues_ite (c p) : recallValues c p = if p = [] then [c.default1,
    c.default2] else p := by cases p <;> simp [recallValues]

/-- `RECALL`'s values are one to nine valid ones (R112). -/
theorem recallValues_legal (c : Params) (hc : paramsLegal c = true) (found : List Freq) (h : found.length ≤ 9)
    (hv : ∀ v ∈ found, valid c v = true) :
   1 ≤ (recallValues c found).length ∧ (recallValues c found).length ≤ 9 ∧ ∀ v ∈ recallValues c found,
       valid c v = true := by
  simp only [paramsLegal, Bool.and_eq_true] at hc
  match found with
  | [] => refine ⟨by simp [recallValues], by simp [recallValues], ?_⟩; simp [recallValues, hc]
  | v :: r => exact ⟨by simp [recallValues], h, hv⟩

/-- `RECALL`'s response is legal (R112). -/
theorem responseLegal_recallValues {c : Params} (hc : paramsLegal c = true) (m : Memory) :
    responseLegal c (.frequencies (recallValues c (mediumPrefix c m))) = true := by
  obtain ⟨hpos, hle, hvalid⟩ := recallValues_legal c hc _ (mediumPrefix_length_le c m) fun v hv => valid_of_mem_takeWhile hv
  simp only [responseLegal, Config.nSlots, hpos, hle, decide_true, Bool.and_self, Bool.true_and]
  exact List.all_eq_true.mpr hvalid

/-- The valid prefix of slots that hold a list and then an invalid value. -/
theorem takeWhile_slotsFrom_eq (c : Params) (m : Memory) : ∀ (p : List Freq) (n i : Nat), p.length ≤ n → (∀ v ∈ p,
    valid c v = true) →
   (∀ j, ∀ h : j < p.length, Memory.slot m (i + j) = p[j]) → (p.length < n →
       ¬ valid c (Memory.slot m (i + p.length)) = true) →
   (slotsFrom m n i).takeWhile (valid c) = p := by
  intro p
  induction p with
  | nil =>
    intro n i hn hv hs hx
    match n with
    | 0 => rfl
    | n + 1 => simp only [slotsFrom]; rw [List.takeWhile_cons_of_neg (by simpa using hx (by simp))]
  | cons v p ih =>
    intro n i hn hv hs hx
    match n with
    | 0 => simp at hn
    | n + 1 =>
      have h0 : Memory.slot m i = v := hs 0 (by simp)
      simp only [slotsFrom, h0]
      rw [List.takeWhile_cons_of_pos (hv v (by simp))]
      congr 1
      apply ih n (i+1) (by simpa using hn) (fun w hw => hv w (by simp [hw]))
      · intro j hj
        have := hs (j+1) (by simpa using hj)
        rw [show i + 1 + j = i + (j + 1) by omega]; simpa using this
      · intro h
        have := hx (by simpa using h)
        rw [show i + 1 + p.length = i + (v :: p).length by simp; omega]; exact this

/-- After `STORE` the valid prefix of the medium is the one of the operand (R114). -/
theorem mediumPrefix_storeList {s : State} {vs} (hm : Memory.wf s.medium = true) (hp : paramsLegal s.params = true) :
   mediumPrefix s.params (storeList vs s).medium = validPrefix s.params vs := by
  obtain ⟨h1, h2⟩ := storeLoop_slots 9 1 vs s (by omega) hm
  refine takeWhile_slotsFrom_eq s.params _ (validPrefix s.params vs) 9 1 (validPrefix_length_le _ _)
      (fun v hv => valid_of_mem_takeWhile hv) h1 ?_
  intro h
  have := h2 h
  rw [show Memory.slot (storeList vs s).medium (1 + (validPrefix s.params vs).length) = Config.sentinel from this]
  simp only [paramsLegal, Bool.and_eq_true] at hp
  simpa using hp.1.1.1

/-- The valid prefix of the medium is decided by the slots up to the first invalid one (R102). -/
theorem takeWhile_slotsFrom_congr (c : Params) (m m' : Memory) : ∀ (n i : Nat), 1 ≤ i → (∀ a, slotOffset i ≤ a →
    a < slotOffset i + 4 * min (((slotsFrom m n i).takeWhile (valid c)).length + 1) n →
      Memory.read m' a = Memory.read m a) →
          (slotsFrom m' n i).takeWhile (valid c) = (slotsFrom m n i).takeWhile (valid c) := by
  intro n
  induction n with
  | zero => intros; rfl
  | succ n ih =>
    intro i hi h
    have hs : Memory.slot m' i = Memory.slot m i := Memory.read32_congr fun a h1 h2 => h a h1 (by omega)
    simp only [slotsFrom, hs]
    by_cases hv : valid c (Memory.slot m i) = true
    · simp only [slotsFrom] at h
      rw [List.takeWhile_cons_of_pos hv] at h ⊢
      rw [List.takeWhile_cons_of_pos hv, ih (i+1) (by omega)]
      intro a h1 h2
      have := slotOffset_add i 1 hi
      exact h a (by omega) (by simp only [List.length_cons]; omega)
    · rw [List.takeWhile_cons_of_neg hv, List.takeWhile_cons_of_neg hv]

/-- The gets are gets. -/
theorem getsFrom_get (n : Nat) : ∀ i, ∀ o ∈ getsFrom i n, ∃ off, o = .get off := by
  induction n with
  | zero => simp [getsFrom]
  | succ n ih =>
    intro i o ho
    simp only [getsFrom, List.mem_cons] at ho
    rcases ho with rfl | ho
    · exact ⟨_, rfl⟩
    · exact ih _ _ ho

/-- The gets stay in the region and are aligned (R48). -/
theorem getsFrom_legal (n : Nat) : ∀ i, 1 ≤ i → i + n ≤ 10 → (getsFrom i n).all mediumOpLegal = true := by
  induction n with
  | zero => intros; rfl
  | succ n ih =>
    intro i h1 h2
    simp only [getsFrom, List.all_cons, ih (i+1) (by omega) (by omega), Bool.and_true, mediumOpLegal,
        Bool.and_eq_true, decide_eq_true_eq]
    simp only [slotOffset, Config.slotBytes, Config.regionBytes]; omega

/-- The puts stay in the region and are aligned (R48). -/
theorem putsFrom_legal (vs : List Freq) : ∀ i, 1 ≤ i → i + vs.length ≤ 10 →
    (putsFrom i vs).all mediumOpLegal = true := by
  induction vs with
  | nil => intros; rfl
  | cons v vs ih =>
    intro i h1 h2
    simp only [List.length_cons] at h2
    simp only [putsFrom, List.all_cons, ih (i+1) (by omega) (by omega), Bool.and_true, mediumOpLegal,
        Bool.and_eq_true, decide_eq_true_eq]
    simp only [slotOffset, Config.slotBytes, Config.regionBytes]; omega

end Sys2Proof.Machine
end

