-- ==== Sys2Proof/Laws/PerInstr.lean ====
section
/-!
SUPPORT. One family of statements per event: the encoding has the length R66 gives the event.
-/

namespace Sys2Proof.Laws.EncodedLength

/-- An event's bytes are as many as R66 says for its format. -/
def Statement (i : Instr) : Prop := (encode i).length = i.byteLength

theorem activate : Statement .activate := rfl
theorem edgeA (l : Level) : Statement (.edgeA l) := rfl
theorem edgeB (l : Level) : Statement (.edgeB l) := rfl
theorem read : Statement .read := rfl
theorem write (n : Position) : Statement (.write n) := rfl
theorem initMedium : Statement .initMedium := rfl
theorem store (values : List Freq) : Statement (.store values) := by
  simp only [Statement, encode, Instr.operandBytes, List.length_cons, length_flatMap_leBytes, Instr.byteLength]
  omega
theorem recallFreqs : Statement .recallFreqs := rfl
theorem reset : Statement .reset := rfl

end Sys2Proof.Laws.EncodedLength
end

