-- ==== Sys2Proof/Laws/Step.lean ====
section
/-!
SUPPORT. What one event and one step can do, said once: the cases of exec, the cases of step, runs cut in two.
-/

namespace Sys2Proof.Machine

/-- Every way an event can complete, with the state it leaves. -/
theorem exec_cases {i : Instr} {s t : State} (h : exec i s = .next t) :
    (i = .activate ∧ s.armed = false ∧ t = s.arm) ∨
    (∃ l, i = .edgeA l ∧ t = deliverEdge .a l s) ∨
    (∃ l, i = .edgeB l ∧ t = deliverEdge .b l s) ∨
    (i = .read ∧ t = s.respond (.position s.pos)) ∨
    (∃ n, i = .write n ∧ t = s.withPos n) ∨
    (i = .initMedium ∧ t = s.ready) ∨
    (∃ vs, i = .store vs ∧ s.medReady = true ∧ t = storeList vs s) ∨
    (i = .recallFreqs ∧ s.medReady = true ∧ t = recallList s) ∨
    (i = .reset ∧ t = resetBlock s) := by
  cases i with
  | activate => cases ha : s.armed <;> simp_all [exec, execActivate]
  | edgeA l => simp_all [exec, execEdgeA]
  | edgeB l => simp_all [exec, execEdgeB]
  | read => simp_all [exec, execRead]
  | write n => simp_all [exec, execWrite]
  | initMedium => simp_all [exec, execInitMedium]
  | store vs => cases hr : s.medReady <;> simp_all [exec, execStore, whenReady]
  | recallFreqs => cases hr : s.medReady <;> simp_all [exec, execRecall, whenReady]
  | reset => simp_all [exec, execReset]

/-- Every way a step can answer a next state. -/
theorem step_cases {s t : State} (h : step s = .next t) :
    (s.input = [] ∧ t = s) ∨
    ∃ i rest, decode s.input = .event i rest ∧ exec i (s.withInput rest) = .next t := by
  match hin : s.input with
  | [] =>
    simp [step, fetch, hin] at h
    exact .inl ⟨rfl, h.symm⟩
  | b :: bs =>
    right
    match hd : decode (b :: bs) with
    | .event i rest => exact ⟨i, rest, rfl, by simpa [step, fetch, hin, hd] using h⟩
    | .rejected why => simp [step, fetch, hin, hd] at h

/-- A run of two parts is the first part and then the second. -/
theorem runEvents_append (es fs : List Instr) (s : State) :
    runEvents (es ++ fs) s = andThen (runEvents es s) (runEvents fs) := by
  induction es generalizing s with
  | nil => rfl
  | cons i es ih =>
    simp only [List.cons_append, runEvents]
    match exec i s with
    | .next t => exact ih t
    | .fault r => exact nomatch r
    | .refused r => rfl

/-- A run that completes completes its first event and then the rest. -/
theorem runEvents_cons_next {i : Instr} {es : List Instr} {s t : State} (h : runEvents (i :: es) s = .next t) :
    ∃ m, exec i s = .next m ∧ runEvents es m = .next t := by
  simp only [runEvents] at h
  match hm : exec i s with
  | .next m => exact ⟨m, rfl, by simpa [andThen, hm] using h⟩
  | .fault r => exact nomatch r
  | .refused r => simp [andThen, hm] at h

/-! ### What one event comes to -/

/-- `STORE` on a ready medium. -/
theorem exec_store {s : State} (h : s.medReady = true) (vs : List Freq) : exec (.store vs) s = .next (storeList vs s) := by
  simp [exec, execStore, whenReady, h]

/-- `RECALL` on a ready medium. -/
theorem exec_recall {s : State} (h : s.medReady = true) : exec .recallFreqs s = .next (recallList s) := by
  simp [exec, execRecall, whenReady, h]

/-- An edge event runs its line's delivery and completes. -/
theorem exec_edge {i : Instr} (h : isEdge i = true) :
    ∃ line l, ∀ s, exec i s = .next (deliverEdge line l s) := by
  cases i <;> simp [isEdge] at h
  · exact ⟨.a, _, fun _ => rfl⟩
  · exact ⟨.b, _, fun _ => rfl⟩

/-- No event changes a parameter, a pin or the event stream. -/
theorem exec_frame {i : Instr} {s t : State} (h : exec i s = .next t) :
    t.params = s.params ∧ t.pinA = s.pinA ∧ t.pinB = s.pinB ∧ t.input = s.input := by
  obtain ⟨_, _, rfl⟩ | ⟨l, _, rfl⟩ | ⟨l, _, rfl⟩ | ⟨_, rfl⟩ | ⟨n, _, rfl⟩ | ⟨_, rfl⟩ | ⟨vs, _, _, rfl⟩ | ⟨_, _, rfl⟩ |
    ⟨_, rfl⟩ := exec_cases h
  · exact ⟨rfl, rfl, rfl, rfl⟩
  · obtain ⟨_, _, _, _, hedge⟩ := deliverEdge_frame .a l s
    rw [hedge]
    exact ⟨rfl, rfl, rfl, rfl⟩
  · obtain ⟨_, _, _, _, hedge⟩ := deliverEdge_frame .b l s
    rw [hedge]
    exact ⟨rfl, rfl, rfl, rfl⟩
  · exact ⟨rfl, rfl, rfl, rfl⟩
  · exact ⟨rfl, rfl, rfl, rfl⟩
  · exact ⟨rfl, rfl, rfl, rfl⟩
  · rw [storeList_eq]
    exact ⟨rfl, rfl, rfl, rfl⟩
  · rw [recallList_eq]
    exact ⟨rfl, rfl, rfl, rfl⟩
  · exact ⟨rfl, rfl, rfl, rfl⟩

/-- Every event acts the same under other pins and another rest of the stream (R26). -/
theorem exec_congr (i : Instr) (f : State → State) (s : State)
    (hf : ∃ (a b : PinId → PinId) (c : List Byte → List Byte),
      ∀ s, f s = { s with pinA := a s.pinA, pinB := b s.pinB, input := c s.input }) :
    exec i (f s) = mapNext f (exec i s) := by
  obtain ⟨a, b, c, hf⟩ := hf
  cases i with
  | activate => cases h : s.armed <;> simp_all [exec, execActivate, mapNext, andThen, State.arm]
  | edgeA l =>
    have hedge := deliverEdge_congr .a l (s := s) (s' := f s) (by rw [hf]) (by rw [hf]) (by rw [hf]) (by rw [hf])
      (by rw [hf]) (by rw [hf])
    obtain ⟨_, _, _, _, hframe⟩ := deliverEdge_frame .a l s
    simp only [exec, execEdgeA, mapNext, andThen, hedge]
    rw [hf (deliverEdge .a l s), hf s, hframe]
  | edgeB l =>
    have hedge := deliverEdge_congr .b l (s := s) (s' := f s) (by rw [hf]) (by rw [hf]) (by rw [hf]) (by rw [hf])
      (by rw [hf]) (by rw [hf])
    obtain ⟨_, _, _, _, hframe⟩ := deliverEdge_frame .b l s
    simp only [exec, execEdgeB, mapNext, andThen, hedge]
    rw [hf (deliverEdge .b l s), hf s, hframe]
  | read => simp_all [exec, execRead, mapNext, andThen, State.respond]
  | write n => simp_all [exec, execWrite, mapNext, andThen, State.withPos]
  | initMedium => simp_all [exec, execInitMedium, mapNext, andThen, State.ready]
  | store vs =>
    by_cases hm : s.medReady = true
    · rw [exec_store hm, exec_store (by rw [hf]; exact hm), storeList_congr vs (s := s) (by rw [hf]) (by rw [hf]) (by rw [hf])]
      simp only [mapNext, andThen, storeList_eq vs s, hf]
    · simp_all [exec, execStore, whenReady, mapNext, andThen]
  | recallFreqs => by_cases hm : s.medReady = true <;> simp_all [exec, execRecall, whenReady, mapNext, andThen, recallList_eq]
  | reset => simp_all [exec, execReset, mapNext, andThen, resetBlock]

/-- Only `STORE` changes the medium (R39). -/
theorem exec_medium {i : Instr} {s t : State} (h : exec i s = .next t) (hi : ∀ vs, i ≠ .store vs) :
    t.medium = s.medium := by
  obtain ⟨_, _, rfl⟩ | ⟨l, _, rfl⟩ | ⟨l, _, rfl⟩ | ⟨_, rfl⟩ | ⟨n, _, rfl⟩ | ⟨_, rfl⟩ | ⟨vs, rfl, _, _⟩ | ⟨_, _, rfl⟩ |
    ⟨_, rfl⟩ := exec_cases h
  · rfl
  · obtain ⟨_, _, _, _, hedge⟩ := deliverEdge_frame .a l s
    rw [hedge]
  · obtain ⟨_, _, _, _, hedge⟩ := deliverEdge_frame .b l s
    rw [hedge]
  · rfl
  · rfl
  · rfl
  · exact absurd rfl (hi vs)
  · rw [recallList_eq]
  · rfl

/-- No foreground event changes `dstate` (R23). -/
theorem exec_foreground_dstate {i : Instr} {s t : State} (h : exec i s = .next t) (hi : agentOf i = .foreground) :
    t.dstate = s.dstate := by
  obtain ⟨_, _, rfl⟩ | ⟨l, rfl, _⟩ | ⟨l, rfl, _⟩ | ⟨_, rfl⟩ | ⟨n, _, rfl⟩ | ⟨_, rfl⟩ | ⟨vs, _, _, rfl⟩ | ⟨_, _, rfl⟩ |
    ⟨rfl, _⟩ := exec_cases h
  · rfl
  · simp [agentOf] at hi
  · simp [agentOf] at hi
  · rfl
  · rfl
  · rfl
  · rw [storeList_eq]
  · rw [recallList_eq]
  · simp [agentOf] at hi

/-- A run without `STORE` leaves the medium and the parameters. -/
theorem runEvents_medium {es : List Instr} {s t : State} (h : runEvents es s = .next t)
    (hes : ∀ i ∈ es, ∀ vs, i ≠ .store vs) : t.medium = s.medium ∧ t.params = s.params := by
  induction es generalizing s with
  | nil =>
    cases h
    exact ⟨rfl, rfl⟩
  | cons i es ih =>
    obtain ⟨m, hm, hrest⟩ := runEvents_cons_next h
    obtain ⟨hmedium, hparams⟩ := ih hrest fun j hj => hes j (by simp [hj])
    exact ⟨hmedium.trans (exec_medium hm (hes i (by simp))), hparams.trans (exec_frame hm).1⟩

/-- A completed event moves the caller's contract on (R120). -/
theorem contractKept_cons {i : Instr} {s t : State} (h : exec i s = .next t) (es : List Instr) :
    contractKept s.armed s.medReady (i :: es) = contractKept t.armed t.medReady es := by
  obtain ⟨rfl, ha, rfl⟩ | ⟨l, rfl, rfl⟩ | ⟨l, rfl, rfl⟩ | ⟨rfl, rfl⟩ | ⟨n, rfl, rfl⟩ | ⟨rfl, rfl⟩ | ⟨vs, rfl, hr, rfl⟩ |
    ⟨rfl, hr, rfl⟩ | ⟨rfl, rfl⟩ := exec_cases h
  · simp [contractKept, ha]
  · obtain ⟨_, _, _, _, hedge⟩ := deliverEdge_frame .a l s
    rw [hedge]
    rfl
  · obtain ⟨_, _, _, _, hedge⟩ := deliverEdge_frame .b l s
    rw [hedge]
    rfl
  · rfl
  · rfl
  · rfl
  · rw [storeList_eq]
    simp [contractKept, hr]
  · rw [recallList_eq]
    simp [contractKept, hr]
  · rfl

/-- A reserved encoding at the head of the stream is refused (R70). -/
theorem step_rejected {s : State} {b : Byte} {bs : List Byte} {why : Reject} (hs : s.input = b :: bs)
    (h : decode (b :: bs) = .rejected why) : step s = .refused (refusalOf why) := by
  simp [step, fetch, hs, h]

end Sys2Proof.Machine
end

