-- ==== Sys2Proof/Laws/TraceText.lean ====
section
/-!
SUPPORT. The text of a trace piece by piece: digits, numbers, blanks and separators, one operand list, one line.
-/

namespace Sys2Proof.Machine

/-- A decimal digit character. -/
def isDig (c : Char) : Prop := 48 ≤ c.toNat ∧ c.toNat ≤ 57

theorem digitChar_toNat {d : Nat} (h : d < 10) : (digitChar d).toNat = 48 + d := by
  interval_cases d <;> decide

theorem digit_dig {d : Nat} (h : d < 10) : isDig (digitChar d) := by
  simp only [isDig, digitChar_toNat h]; omega

theorem digitValue_digit {d : Nat} (h : d < 10) : digitValue 10 (digitChar d) = some d := by
  interval_cases d <;> decide

theorem decimal_dig (f n : Nat) : ∀ c ∈ decimal f n, isDig c := by
  induction f generalizing n with
  | zero => simp [decimal]
  | succ f ih =>
    intro c hc
    simp only [decimal, List.mem_append, List.mem_singleton] at hc
    rcases hc with hc | rfl
    · split at hc
      · simp at hc
      · exact ih _ c hc
    · exact digit_dig (by omega)

theorem decimal_ne (f n : Nat) : decimal (f+1) n ≠ [] := by simp [decimal]

theorem readDigits_append (b : Nat) (xs ys) : ∀ acc,
    readDigits b acc (xs ++ ys) = (readDigits b acc xs).bind (fun a => readDigits b a ys) := by
  induction xs with
  | nil => intro acc; rfl
  | cons x xs ih => intro acc; simp only [List.cons_append, readDigits]; cases digitValue b x <;> simp [ih]

/-- Printed digits read back. -/
theorem readDigits_decimal (f n : Nat) (h : n < 10 ^ (f+1)) : readDigits 10 0 (decimal (f+1) n) = some n := by
  induction f generalizing n with
  | zero =>
    have : n < 10 := by simpa using h
    simp only [decimal, this, if_true, List.nil_append, readDigits, digitValue_digit (show n % 10 < 10 by omega)]
    congr 1; omega
  | succ f ih =>
    rw [decimal]
    by_cases hn : n < 10
    · simp only [hn, if_true, List.nil_append, readDigits, digitValue_digit (show n % 10 < 10 by omega)]; congr 1; omega
    · rw [if_neg hn, readDigits_append, ih (n/10) (by rw [Nat.pow_succ] at h; omega)]
      simp only [Option.bind_some, readDigits, digitValue_digit (show n % 10 < 10 by omega)]; congr 1; omega

/-- A printed number below its bound reads back. -/
theorem readBelow_decimal (n b : Nat) (h : n < 10^10) (hb : n < b) : readBelow 10 b (decimal32 n) = some n := by
  have h1 := readDigits_decimal 9 n h
  have h2 := decimal_ne 9 n
  simp only [readBelow, decimal32]
  match hd : decimal 10 n with
  | [] => exact absurd hd h2
  | c :: cs => rw [hd] at h1; simp only [readNumber, h1, hb, if_true]

theorem readFreq_decimal (v : Freq) : readFreq (decimal32 v.toNat) = some v := by
  have := v.isLt
  rw [readFreq, readBelow_decimal _ _ (by omega) (by omega)]; simp

theorem digit_ne {c : Char} (h : isDig c) (d : Char) (hd : d.toNat < 48 ∨ 57 < d.toNat) : c ≠ d := by
  rintro rfl; simp only [isDig] at h; omega

theorem decimal32_ne (n) : decimal32 n ≠ [] := decimal_ne 9 n

/-- A printed `WRITE` operand reads back (R72). -/
theorem readPosition_text (n : Position) : readPosition (positionText n) = some n := by
  have h1 : n.toInt < 2147483648 := by have := n.toInt_lt; simpa using this
  have h2 : -2147483648 ≤ n.toInt := by have := n.le_toInt; simpa using this
  simp only [positionText]
  split
  · rename_i h
    simp only [readPosition]
    rw [readBelow_decimal _ _ (by omega) (by omega)]
    show some (BitVec.ofInt 32 (-((n.toInt.natAbs : Nat) : Int))) = some n
    rw [show -((n.toInt.natAbs : Nat) : Int) = n.toInt by omega]; simp
  · rename_i h
    have hd := decimal_dig 10 n.toInt.natAbs
    have hr := readBelow_decimal n.toInt.natAbs (2^31) (by omega) (by omega)
    have fin : (readBelow 10 (2^31) (decimal32 n.toInt.natAbs)).map (fun n => BitVec.ofNat 32 n) = some n := by
      rw [hr]; simp only [Option.map_some, Option.some.injEq]
      apply BitVec.eq_of_toInt_eq
      rw [BitVec.toInt_ofNat', Int.bmod_eq_of_le] <;> omega
    simp only [decimal32] at fin ⊢
    match hx : decimal 10 n.toInt.natAbs with
    | [] => exact absurd hx (decimal_ne 9 _)
    | [c] =>
      rw [hx] at fin hd
      have := digit_ne (hd c (by simp)) '-' (by decide)
      unfold readPosition
      split
      · rename_i heq; simp at heq; exact absurd heq.1 this
      · rename_i heq; simp at heq
      · exact fin
    | c :: e :: cs =>
      rw [hx] at fin hd
      have h1 := digit_ne (hd c (by simp)) '-' (by decide)
      have h2 := digit_ne (hd e (by simp)) 'x' (by decide)
      unfold readPosition
      split
      · rename_i heq; simp at heq; exact absurd heq.1 h1
      · rename_i heq; simp at heq; exact absurd heq.2.1 h2
      · exact fin

/-- A character that is neither blank nor a separator, a comment sign or a line end. -/
def plain (c : Char) : Prop := isBlank c = false ∧ c ≠ ',' ∧ c ≠ ';' ∧ c ≠ '\n'

/-- The same as a Bool. -/
def plainB (c : Char) : Bool := !isBlank c && c != ',' && c != ';' && c != '\n'

theorem plain_of (m : List Char) (h : m.all plainB = true) : ∀ c ∈ m, plain c := by
  intro c hc
  have := List.all_eq_true.1 h c hc
  simpa [plainB, plain, and_assoc] using this

theorem dig_plain {c} (h : isDig c) : plain c := by
  refine ⟨?_, digit_ne h _ (by decide), digit_ne h _ (by decide), digit_ne h _ (by decide)⟩
  have h1 := digit_ne h ' ' (by decide); have h2 := digit_ne h '\t' (by decide); have h3 := digit_ne h '\r' (by decide)
  simp [isBlank, h1, h2, h3]

theorem drop_self (xs : List Char) (h : ∀ c, xs.head? = some c → isBlank c = false) : xs.dropWhile isBlank = xs := by
  cases xs with
  | nil => rfl
  | cons x xs => rw [List.dropWhile_cons_of_neg (by simp [h x rfl])]

theorem trim_self (xs : List Char) (h : ∀ c, xs.head? = some c → isBlank c = false) (h2 : ∀ c, xs.getLast? = some c →
    isBlank c = false) : trim xs = xs := by
  rw [trim, drop_self xs h, drop_self, List.reverse_reverse]
  intro c hc; rw [List.head?_reverse] at hc; exact h2 c hc

theorem trim_space (xs : List Char) : trim (' ' :: xs) = trim xs := by
  simp only [trim]; rw [List.dropWhile_cons_of_pos (by decide)]

theorem trim_plain (w : List Char) (h : ∀ c ∈ w, plain c) : trim w = w :=
  trim_self w (fun c hc => (h c (List.mem_of_head? hc)).1) (fun c hc => (h c (List.mem_of_getLast? hc)).1)

theorem split_ne (sep : Char) (w : List Char) : splitOnChar sep w ≠ [] := by
  cases w with
  | nil => simp [splitOnChar]
  | cons x w => simp only [splitOnChar]; split <;> [simp; (split <;> simp)]

theorem split_plain (w : List Char) (sep : Char) (h : ∀ c ∈ w, c ≠ sep) : splitOnChar sep w = [w] := by
  induction w with
  | nil => rfl
  | cons x w ih =>
    simp only [splitOnChar, ih (fun c hc => h c (by simp [hc])), h x (by simp), if_false]

/-- Splitting at the first separator. -/
theorem split_append (w rest : List Char) (sep : Char) (h : ∀ c ∈ w,
    c ≠ sep) : splitOnChar sep (w ++ sep :: rest) = w :: splitOnChar sep rest := by
  induction w with
  | nil =>
    simp only [List.nil_append, splitOnChar, if_true]
    match hs : splitOnChar sep rest with
    | [] => exfalso; cases rest with
       | nil => simp [splitOnChar] at hs
       | cons y ys => simp only [splitOnChar] at hs; split at hs <;> first | simp at hs | (split at hs <;> simp at hs)
    | _ :: _ => rfl
  | cons x w ih =>
    simp only [List.cons_append, splitOnChar, ih (fun c hc => h c (by simp [hc])), h x (by simp), if_false]

theorem decimal32_plain (n) : ∀ c ∈ decimal32 n, plain c := fun c hc => dig_plain (decimal_dig 10 n c hc)

/-- A printed list splits into its values (R72). -/
theorem values_split (vs : List Freq)
    (h : vs ≠ []) : (splitOnChar ',' (valuesText vs)).map trim = vs.map (fun v => decimal32 v.toNat) := by
  induction vs with
  | nil => exact absurd rfl h
  | cons v rest ih =>
    match rest with
    | [] =>
      simp only [valuesText, List.map_cons, List.map_nil]
      rw [split_plain _ _ (fun c hc => (decimal32_plain _ c hc).2.1)]
      simp only [List.map_cons, List.map_nil, trim_plain _ (decimal32_plain _)]
    | w :: ws =>
      simp only [valuesText]
      rw [split_append _ _ _ (fun c hc => (decimal32_plain _ c hc).2.1)]
      have ih := ih (by simp)
      have : (splitOnChar ',' (' ' :: valuesText (w :: ws))).map trim = (splitOnChar ',' (valuesText (w :: ws))).map trim := by
        simp only [splitOnChar]
        generalize hg : splitOnChar ',' (valuesText (w :: ws)) = g
        match g, hg with
        | [], hs => exact absurd hs (split_ne ',' (valuesText (w :: ws)))
        | a :: b, _ => simp only [show ((' ' : Char) = ',') = False by decide, if_false, List.map_cons, trim_space]
      simp only [List.map_cons, trim_plain _ (decimal32_plain _), this, ih]

/-- Printed values read back (R72). -/
theorem readFreqs_text (vs : List Freq) : readFreqs (vs.map (fun v => decimal32 v.toNat)) = some vs := by
  induction vs with
  | nil => rfl
  | cons v vs ih => simp only [List.map_cons, readFreqs, readFreq_decimal, ih]

/-- A character that ends neither the line nor its code. -/
def okc (c : Char) : Prop := c ≠ ';' ∧ c ≠ '\n'

theorem values_ok (vs : List Freq) : (∀ c ∈ valuesText vs, okc c) ∧ (∀ c, (valuesText vs).head? = some c →
    isBlank c = false) ∧ (∀ c, (valuesText vs).getLast? = some c → isBlank c = false) ∧ (vs ≠ [] →
    valuesText vs ≠ []) := by
  induction vs with
  | nil => simp [valuesText]
  | cons v rest ih =>
    have hp := decimal32_plain v.toNat
    have hd : ∀ c, (decimal32 v.toNat).head? = some c → isBlank c = false := fun c hc => (hp c (List.mem_of_head? hc)).1
    match rest with
    | [] => exact ⟨fun c hc => ⟨(hp c hc).2.2.1, (hp c hc).2.2.2⟩, hd,
        fun c hc => (hp c (List.mem_of_getLast? hc)).1, fun _ => decimal32_ne _⟩
    | w :: ws =>
      obtain ⟨h1, h2, h3, h4⟩ := ih
      simp only [valuesText]
      refine ⟨?_, ?_, ?_, by simp⟩
      · intro c hc
        simp only [List.mem_append, List.mem_cons] at hc
        rcases hc with hc | rfl | rfl | hc
        · exact ⟨(hp c hc).2.2.1, (hp c hc).2.2.2⟩
        · exact ⟨by decide, by decide⟩
        · exact ⟨by decide, by decide⟩
        · exact h1 c hc
      · intro c hc
        rw [List.head?_append_of_ne_nil _ (decimal32_ne _)] at hc; exact hd c hc
      · intro c hc
        rw [List.getLast?_append_of_ne_nil _ (by simp)] at hc
        have hne := h4 (by simp)
        match hv : valuesText (w :: ws) with
        | [] => exact absurd hv hne
        | a :: b => rw [hv] at hc h3; rw [List.getLast?_cons_cons, List.getLast?_cons_cons] at hc; exact h3 c hc

theorem pos_ok (n : Position) : (∀ c ∈ positionText n, plain c) ∧ positionText n ≠ [] := by
  simp only [positionText]
  split
  · refine ⟨?_, by simp⟩
    intro c hc; simp only [List.mem_cons] at hc
    rcases hc with rfl | hc
    · refine ⟨by decide, by decide, by decide, by decide⟩
    · exact decimal32_plain _ c hc
  · exact ⟨decimal32_plain _, decimal32_ne _⟩

/-- A line of a mnemonic and operands, cut into the two (R72). -/
theorem word_line (m ops : List Char) (hm : ∀ c ∈ m, plain c) (hne : m ≠ []) (hno : ops ≠ []) (h1 : ∀ c ∈ ops, okc c)
   (h2 : ∀ c, ops.head? = some c → isBlank c = false) (h3 : ∀ c, ops.getLast? = some c → isBlank c = false) :
   readLine (m ++ ' ' :: ops) = readEvent m ((splitOnChar ',' ops).map trim) := by
  have e1 : (m ++ ' ' :: ops).takeWhile (fun c => c != ';') = m ++ ' ' :: ops := by
    rw [List.takeWhile_eq_self_iff]
    intro c hc
    simp only [List.mem_append, List.mem_cons] at hc
    rcases hc with hc | rfl | hc
    · simpa using (hm c hc).2.2.1
    · decide
    · simpa using (h1 c hc).1
  have e2 : trim (m ++ ' ' :: ops) = m ++ ' ' :: ops := by
    apply trim_self
    · intro c hc; rw [List.head?_append_of_ne_nil _ hne] at hc; exact (hm c (List.mem_of_head? hc)).1
    · intro c hc; rw [List.getLast?_append_of_ne_nil _ (by simp)] at hc
      match ops with
      | [] => exact absurd rfl hno
      | a :: b => rw [List.getLast?_cons_cons] at hc; exact h3 c hc
  have hp : ∀ c ∈ m, (!isBlank c) = true := fun c hc => by simp [(hm c hc).1]
  have e3 : (m ++ ' ' :: ops).takeWhile (fun c => !isBlank c) = m := by
    rw [List.takeWhile_append_of_pos hp, List.takeWhile_cons_of_neg (by decide), List.append_nil]
  have e4 : (m ++ ' ' :: ops).dropWhile (fun c => !isBlank c) = ' ' :: ops := by
    rw [List.dropWhile_append_of_pos hp, List.dropWhile_cons_of_neg (by decide)]
  have e5 : operandsOf (' ' :: ops) = (splitOnChar ',' ops).map trim := by
    rw [operandsOf, trim_space, trim_self ops h2 h3]
    cases ops <;> first | exact absurd rfl hno | rfl
  rw [readLine, e1, e2]
  have hb : m ++ ' ' :: ops ≠ [] := by simp
  split
  · rename_i h; exact absurd h hb
  · rw [e3, e4, e5]

theorem mnem_plain (i : Instr) : ∀ c ∈ mnemonicText i, plain c := plain_of _ (by cases i <;> rfl)

theorem eventText_ops (i : Instr) (h : operandText i ≠ []) : eventText i = mnemonicText i ++ ' ' :: operandText i := by
  unfold eventText
  split
  · rename_i h'; exact absurd h' h
  · rfl

theorem eventText_none (i : Instr) (h : operandText i = []) : eventText i = mnemonicText i := by
  unfold eventText
  rw [h]

theorem mnem_ne (i : Instr) : mnemonicText i ≠ [] := by cases i <;> simp [mnemonicText]

theorem ops_ok (i : Instr) : (∀ c ∈ operandText i, okc c) ∧ (∀ c, (operandText i).head? = some c →
    isBlank c = false) ∧ (∀ c, (operandText i).getLast? = some c → isBlank c = false) := by
  cases i with
  | edgeA l => cases l <;> simp [operandText, levelText, okc, isBlank]
  | edgeB l => cases l <;> simp [operandText, levelText, okc, isBlank]
  | write n =>
    have hp := (pos_ok n).1
    exact ⟨fun c hc => ⟨(hp c hc).2.2.1, (hp c hc).2.2.2⟩, fun c hc => (hp c (List.mem_of_head? hc)).1,
        fun c hc => (hp c (List.mem_of_getLast? hc)).1⟩
  | store vs => exact ⟨(values_ok vs).1, (values_ok vs).2.1, (values_ok vs).2.2.1⟩
  | _ => simp [operandText]

/-- A printed event reads back (R72). -/
theorem readLine_text (i : Instr) (hw : i.wf = true) : readLine (eventText i) = some [i] := by
  cases i with
  | edgeA l => cases l <;> rfl
  | edgeB l => cases l <;> rfl
  | write n =>
    obtain ⟨hp, hne⟩ := pos_ok n
    obtain ⟨h1, h2, h3⟩ := ops_ok (.write n)
    rw [eventText_ops (.write n) hne]; rw [operandText] at *; rw [word_line _ _ (mnem_plain _)
        (mnem_ne _) hne h1 h2 h3, split_plain _ _ (fun c hc => (hp c hc).2.1)]
    simp only [List.map_cons, List.map_nil, trim_plain _ hp]
    simp [readEvent, mnemonicText, readPosition_text]
  | store vs =>
    by_cases h0 : vs = []
    · subst h0; rfl
    · obtain ⟨h1, h2, h3, h4⟩ := values_ok vs
      rw [eventText_ops (.store vs) (h4 h0)]; rw [operandText]; rw [word_line _ _ (mnem_plain _) (mnem_ne _)
          (h4 h0) h1 h2 h3, values_split vs h0]
      have hw' : vs.length ≤ Config.nSlots := by simp only [Instr.wf, decide_eq_true_eq] at hw; exact hw
      match vs with
      | [] => exact absurd rfl h0
      | v :: rest =>
        simp only [List.length_cons] at hw'
        have := readFreqs_text (v :: rest)
        simp only [List.map_cons] at this ⊢
        simp only [readEvent, mnemonicText, if_true, List.length_map, this]
        rw [if_pos (by omega)]; rfl
  | _ => rfl

/-- A printed event is one line. -/
theorem text_nl (i : Instr) : ∀ c ∈ eventText i, c ≠ '\n' := by
  intro c hc
  by_cases h : operandText i = []
  · rw [eventText_none i h] at hc; exact (mnem_plain i c hc).2.2.2
  · rw [eventText_ops i h] at hc
    simp only [List.mem_append, List.mem_cons] at hc
    rcases hc with hc | rfl | hc
    · exact (mnem_plain i c hc).2.2.2
    · decide
    · exact ((ops_ok i).1 c hc).2

end Sys2Proof.Machine
end

