-- ==== Sys2Proof/Tests/Slice0.lean ====
section
/-!
SUPPORT. The model's own tests. Expected results are the spec's: 95_test_vectors.md, and the examples of the rules.
First the well-formedness check, the encodings and the classifier's table; then at most two single steps per event; then
the witnesses: for each statement with hypotheses a concrete state and operands that meet them.
-/

namespace Sys2Proof.Tests

open Sys2Proof.Machine

/-- A state in the notation of 95_test_vectors.md: `(armed, lvl_a, lvl_b, dstate, pos)`. -/
def qdec (armed : Bool) (a b : Level) (d : DState) (p : Position) : State :=
  { State.reset with armed := armed, lvlA := a, lvlB := b, dstate := d, pos := p }

/-- A ready block over a medium with these bytes from offset 0. -/
def onMedium (bytes : List Byte) : State :=
  let m := Memory.writeBytes [] 0 bytes
  { State.reset with medReady := true, medium := m, durable := m }

/-- What 95_test_vectors.md prints of a state. -/
def shown (s : State) : Bool × Level × Level × DState × Position := (s.armed, s.lvlA, s.lvlB, s.dstate, s.pos)

/-- The same of an outcome. -/
def showNext (o : Host.Outcome State Fault Refusal) : Option (Bool × Level × Level × DState × Position) :=
  match o with
  | .next s => some (shown s)
  | .fault _ => none
  | .refused _ => none

/-- The first `n` bytes of the medium after an outcome. -/
def mediumNext (n : Nat) (o : Host.Outcome State Fault Refusal) : Option (List Byte) :=
  match o with
  | .next s => some ((List.range n).map (Memory.read s.medium))
  | .fault _ => none
  | .refused _ => none

/-- The bytes on the response port after an outcome. -/
def responsesNext (o : Host.Outcome State Fault Refusal) : Option (List Byte) :=
  match o with
  | .next s => some (s.responses.flatMap Response.bytes)
  | .fault _ => none
  | .refused _ => none

/-- The operations on the medium port after an outcome. -/
def portNext (o : Host.Outcome State Fault Refusal) : Option (List MediumOp) :=
  match o with
  | .next s => some s.mediumPort
  | .fault _ => none
  | .refused _ => none

/-! ### Well-formedness: the one check, with an ill-formed term it refuses (R29, R65) -/

theorem test_wf_refuses_ten_values : (Instr.store (List.replicate 10 145000000)).wf = false := by decide

theorem test_wf_admits_nine_values : (Instr.store (List.replicate 9 145000000)).wf = true := by decide

/-! ### Decoding (95_test_vectors.md section 2.4), every event's word written out -/

theorem test_decode_activate : decode [0b00010000] = .event .activate [] := by decide

theorem test_decode_edgeA_low : decode [0b00100000] = .event (.edgeA .low) [] := by decide

theorem test_decode_edgeA_high : decode [0b00100001] = .event (.edgeA .high) [] := by decide

theorem test_decode_edgeB_low : decode [0b00110000] = .event (.edgeB .low) [] := by decide

theorem test_decode_edgeB_high : decode [0b00110001] = .event (.edgeB .high) [] := by decide

theorem test_decode_read : decode [0b01000000] = .event .read [] := by decide

/-- `50 FB FF FF FF` is `WRITE -5`, `50 00 00 00 80` is `WRITE -2147483648`. -/
theorem test_decode_write :
    decode [0x50, 0xFB, 0xFF, 0xFF, 0xFF] = .event (.write (BitVec.ofInt 32 (-5))) [] ∧
    decode [0x50, 0x00, 0x00, 0x00, 0x80] = .event (.write (BitVec.ofInt 32 (-2147483648))) [] := by decide

theorem test_decode_initMedium : decode [0b10000000] = .event .initMedium [] := by decide

/-- `90 00` is `STORE` with `len = 0`; `90 01 60 27 AC 08` is `STORE 145500000`; what follows is not consumed. -/
theorem test_decode_store :
    decode [0x90, 0x00] = .event (.store []) [] ∧
    decode [0x90, 0x01, 0x60, 0x27, 0xAC, 0x08, 0xA0] = .event (.store [145500000]) [0xA0] := by decide

theorem test_decode_recall : decode [0b10100000] = .event .recallFreqs [] := by decide

theorem test_decode_reset : decode [0b11110000] = .event .reset [] := by decide

/-- The reserved rows of section 2.4. -/
theorem test_decode_unassigned :
    [0x00, 0x60, 0x70, 0xB0, 0xC0, 0xD0, 0xE0].map (fun b : Byte => decode [b]) =
      List.replicate 7 (.rejected .unassignedOpcode) := by decide

theorem test_decode_must_be_zero :
    [0x11, 0x41, 0x58, 0x81, 0xF1, 0x22, 0x23, 0x3E].map (fun b : Byte => decode [b]) =
      List.replicate 8 (.rejected .mustBeZero) := by decide

theorem test_decode_reserved_length :
    decode [0x90, 0x0A] = .rejected .reservedLength ∧ decode [0x90, 0x13] = .rejected .reservedLength := by decide

theorem test_decode_truncated : decode [0x50, 0x01, 0x02] = .rejected .truncated := by decide

/-- The nine assigned opcode values are different (R62). -/
theorem test_opcodes_differ : (opcodeMap.map Opcode.code).Pairwise (· ≠ ·) := by decide

/-- F1's bytes: `80 90 03 00 79 A1 08 80 93 A7 08 FF C9 9A 3B A0`. -/
theorem test_encode_trace :
    encodeTrace [.initMedium, .store [144800000, 145200000, 999999999], .recallFreqs] =
      [0x80, 0x90, 0x03, 0x00, 0x79, 0xA1, 0x08, 0x80, 0x93, 0xA7, 0x08, 0xFF, 0xC9, 0x9A, 0x3B, 0xA0] := by decide

/-- A table word: byte 1 is bits 15..8; the operand bytes above the row's bits are zero. -/
theorem test_table_words :
    decodeTableWord 8 0x21 = some (.edgeA .high) ∧ decodeTableWord 40 0xFFFFFFFB50 = some (.write (BitVec.ofInt 32 (-5))) ∧
    decodeTableWord 16 0x0290 = some (.store [0, 0]) ∧ decodeTableWord 8 0x50 = some (.write 0) ∧
    decodeTableWord 8 0x11 = none := by decide

/-- A fetched table word runs as the first event after reset. -/
theorem test_fetch_word :
    showNext (step (State.reset.withFetchWord 40 0x0000006450)) = some (false, .high, .high, .idle, 100) := by decide

/-- The seven patterns of `dstate`; `111` is none (R23). -/
theorem test_dstate_codes :
    ([0, 1, 2, 3, 4, 5, 6, 7].map dstateOfCode) =
      [some .idle, some .cw1, some .cw2, some .cw3, some .ccw1, some .ccw2, some .ccw3, none] := by decide

/-! ### The trace text (R72, R73) -/

theorem test_text_line : eventText (.write (BitVec.ofInt 32 (-5))) = "WRITE -5".toList := by decide

theorem test_text_reads_program :
    readTrace "ACTIVATE\nWRITE 0x64 ; preset\n\nSTORE 144800000, 145200000\nGLITCH_B\nSTORE".toList =
      some [.activate, .write 100, .store [144800000, 145200000], .edgeB .low, .edgeB .high, .store []] := by decide

/-! ### The classifier's table (section 2.1) and `Valid` (section 2.3) -/

/-- T1 to T28 at the default parameters, `p = 7`; per state the pairs (1,1), (1,0), (0,1), (0,0). -/
theorem test_classifier_table :
    ([DState.idle, .cw1, .cw2, .cw3, .ccw1, .ccw2, .ccw3].flatMap fun d =>
      [(Level.high, Level.high), (.high, .low), (.low, .high), (.low, .low)].map fun ab =>
        classify Defaults.params d ab.1 ab.2 7) =
      [(.idle, 7), (.cw1, 7), (.ccw1, 7), (.ccw1, 7), (.idle, 7), (.cw1, 7), (.cw1, 7), (.cw2, 8),
        (.cw3, 7), (.cw2, 7), (.cw3, 7), (.cw2, 7), (.idle, 7), (.idle, 7), (.cw3, 7), (.cw3, 7)] ++
      [(.idle, 7), (.ccw1, 7), (.ccw1, 7), (.ccw2, 6), (.ccw3, 7), (.ccw3, 7), (.ccw2, 7), (.ccw2, 7),
        (.idle, 7), (.ccw3, 7), (.idle, 7), (.ccw3, 7)] := by decide

/-- The three cells that depend on an OPEN parameter, at its other value (T4, T7, T18). -/
theorem test_classifier_other_parameters :
    let c : Params := { Defaults.params with idleTie := .cwWins, glitchGuard := .leadHigh }
    classify c .idle .low .low 7 = (.cw1, 7) ∧ classify c .cw1 .low .high 7 = (.idle, 7) ∧
      classify c .ccw1 .high .low 7 = (.idle, 7) := by decide

theorem test_valid_corners :
    [0, 143499999, 143500000, 144710000, 145000000, 146500000, 146500001, 999999999, 4294967295].map
      (valid Defaults.params) = [false, false, true, true, true, true, false, false, false] := by decide

/-! ### Single steps -/

/-- R78's example. -/
theorem test_activate : showNext (exec .activate State.reset) = some (true, .high, .high, .idle, 0) := by decide

/-- V19: the second `ACTIVATE` is refused. -/
theorem test_activate_again : exec .activate (qdec true .high .high .idle 0) = .refused .repeatedActivate := rfl

/-- R80's example. -/
theorem test_edgeA :
    showNext (exec (.edgeA .low) (qdec true .high .low .cw1 7)) = some (true, .low, .low, .cw2, 8) := by decide

/-- V17: before `ACTIVATE` an edge changes nothing, not even the cached level. -/
theorem test_edgeA_unarmed :
    showNext (exec (.edgeA .low) State.reset) = some (false, .high, .high, .idle, 0) := by decide

/-- R81's example. -/
theorem test_edgeB :
    showNext (exec (.edgeB .low) (qdec true .high .high .idle 0)) = some (true, .high, .low, .cw1, 0) := by decide

/-- R152: a counter-clockwise detent at the lower end wraps; line B's low comes second (R98). -/
theorem test_edgeB_wraps :
    showNext (exec (.edgeB .low) (qdec true .low .high .ccw1 (BitVec.ofInt 32 (-2147483648)))) =
      some (true, .low, .low, .ccw2, 2147483647) := by decide

/-- R95's example: `pos` = -6 responds `FA FF FF FF`. -/
theorem test_read :
    responsesNext (exec .read (qdec true .high .high .idle (BitVec.ofInt 32 (-6)))) = some [0xFA, 0xFF, 0xFF, 0xFF] := by
  decide

/-- V14: `WRITE 100` in `CW_1` leaves the cycle where it is. -/
theorem test_write :
    showNext (exec (.write 100) (qdec true .high .low .cw1 0)) = some (true, .high, .low, .cw1, 100) := by decide

/-- R104's example, on a medium that holds something. -/
theorem test_initMedium :
    mediumNext 4 (exec .initMedium { onMedium [0x00, 0x44, 0x95, 0x08] with medReady := false }) =
      some [0x00, 0x44, 0x95, 0x08] := by decide

/-- F1: the medium after `STORE 144800000, 145200000, 999999999`. -/
theorem test_store_medium :
    mediumNext 14 (exec (.store [144800000, 145200000, 999999999]) (onMedium [])) =
      some [0x00, 0x79, 0xA1, 0x08, 0x80, 0x93, 0xA7, 0x08, 0xFF, 0xFF, 0xFF, 0xFF, 0xFF, 0xFF] := by decide

/-- F8: the medium operations of `STORE 144000000, 1, 145000000`. -/
theorem test_store_port :
    portNext (exec (.store [144000000, 1, 145000000]) (onMedium [])) =
      some [.put 0 144000000, .put 4 0xFFFFFFFF, .commit] := by decide

/-- F9: a valid slot after an invalid one is not recalled. -/
theorem test_recall :
    responsesNext (exec .recallFreqs (onMedium [0x00, 0x44, 0x95, 0x08, 0xFF, 0xFF, 0xFF, 0xFF, 0x40, 0x86, 0xA4, 0x08])) =
      some [0x01, 0x00, 0x44, 0x95, 0x08] := by decide

/-- F10: slot 1 invalid gives the two defaults. -/
theorem test_recall_defaults :
    responsesNext (exec .recallFreqs (onMedium [0xFF, 0xFF, 0xFF, 0xFF, 0x40, 0x86, 0xA4, 0x08])) =
      some [0x02, 0x70, 0x19, 0xA0, 0x08, 0x40, 0x86, 0xA4, 0x08] := by decide

/-- F11: before `INIT_MEDIUM` they are refused. -/
theorem test_recall_not_ready : exec .recallFreqs State.reset = .refused .mediumNotReady := rfl

/-- R137's example. -/
theorem test_reset :
    showNext (exec .reset (qdec true .low .high .cw2 41)) = some (false, .high, .high, .idle, 0) := by decide

/-- F12: RESET keeps the medium's bytes. -/
theorem test_reset_keeps_medium :
    mediumNext 4 (exec .reset (onMedium [0x00, 0x44, 0x95, 0x08])) = some [0x00, 0x44, 0x95, 0x08] := by decide

/-! ### Witnesses: concrete states and operands that meet the hypotheses of the statements, for each clause -/

/-- The block at rest with both lines cached high, armed; the medium ready and fresh. -/
def rest : State := { State.reset with armed := true, medReady := true }

/-- A band with the limits left out, one of the cases R17 admits; still legal. -/
def openBand : Params := { Defaults.params with minInclusive := false, maxInclusive := false }

theorem witness_ActivateArmsOnceBetweenResets : State.reset.armed = false ∧ rest.armed = true := by decide

theorem witness_EdgeASamplesLineAAndClassifiesOnce : rest.armed = true ∧ State.reset.armed = false := by decide

theorem witness_EdgeBSamplesLineBAndClassifiesOnce : rest.armed = true ∧ State.reset.armed = false := by decide

theorem witness_IdleStateTransitions :
    Defaults.params.idleTie = .ccwWins ∧ ({ Defaults.params with idleTie := .cwWins } : Params).idleTie = .cwWins := by
  decide

theorem witness_ClockwiseArcTransitions :
    Defaults.params.glitchGuard = .bothHigh ∧
    ({ Defaults.params with glitchGuard := .leadHigh } : Params).glitchGuard = .leadHigh := by decide

theorem witness_CounterClockwiseArcTransitions :
    Defaults.params.glitchGuard = .bothHigh ∧
    ({ Defaults.params with glitchGuard := .leadHigh } : Params).glitchGuard = .leadHigh := by decide

/-- Both directions, either line falling second, at the ends of the range and inside it. -/
theorem witness_DetentsStepThePositionAndWrap :
    (∀ p ∈ [2147483647, 0], (qdec true .low .low .cw1 p).armed = true ∧ (qdec true .low .low .cw1 p).dstate = .cw1 ∧
      ∀ i ∈ [Instr.edgeA .low, .edgeB .low], i = .edgeA .low ∧ (qdec true .low .low .cw1 p).lvlB = .low ∨
        i = .edgeB .low ∧ (qdec true .low .low .cw1 p).lvlA = .low) ∧
    (∀ p ∈ [BitVec.ofInt 32 (-2147483648), 0],
      (qdec true .low .low .ccw1 p).armed = true ∧ (qdec true .low .low .ccw1 p).dstate = .ccw1 ∧
      ∀ i ∈ [Instr.edgeA .low, .edgeB .low], i = .edgeA .low ∧ (qdec true .low .low .ccw1 p).lvlB = .low ∨
        i = .edgeB .low ∧ (qdec true .low .low .ccw1 p).lvlA = .low) := by
  simp [qdec]

theorem witness_FullCyclesCountExactlyOne :
    rest.armed = true ∧ rest.lvlA = .high ∧ rest.lvlB = .high ∧ rest.dstate = .idle := by decide

theorem witness_BounceOnOneLineIsNeverCounted :
    rest.armed = true ∧ rest.dstate = .idle ∧ rest.lvlA = .high ∧ rest.lvlB = .high := by decide

theorem witness_HalfTurnAndBackSwallowsTheNextCycle :
    rest.armed = true ∧ rest.lvlA = .high ∧ rest.lvlB = .high ∧ rest.dstate = .idle := by decide

theorem witness_EveryEdgeSequenceIsAbsorbed : (cwCycle ++ ccwCycle ++ glitchA ++ glitchB).all isEdge = true := by decide

/-- Each of the four ways `pos` changes. -/
theorem witness_PositionChangesOnlyAtDetentsWriteAndReset :
    (∃ t, exec (.edgeA .low) (qdec true .high .low .cw1 0) = .next t ∧ t.pos ≠ 0 ∧ t.dstate = .cw2) ∧
    (∃ t, exec (.edgeB .low) (qdec true .low .high .ccw1 0) = .next t ∧ t.pos ≠ 0 ∧ t.dstate = .ccw2) ∧
    (∃ t, exec (.write 5) rest = .next t ∧ t.pos ≠ rest.pos) ∧
    (∃ t, exec .reset (qdec true .high .high .idle 5) = .next t ∧ t.pos ≠ 5) :=
  ⟨⟨_, rfl, by decide⟩, ⟨_, rfl, by decide⟩, ⟨_, rfl, by decide⟩, ⟨_, rfl, by decide⟩⟩

/-- A whole cycle with foreground events before, between and after its edges (`WRITE` and `ACTIVATE` among them) stays
away from `IDLE` until its last edge, and does count. -/
theorem witness_AtMostOneCountBetweenIdleVisits :
    let es : List Instr := [.activate, .read, .edgeB .low, .write 9, .edgeA .low, .store [145000000], .edgeB .high, .read,
      .edgeA .high]
    let s : State := { rest with armed := false }
    s.dstate = .idle ∧ awayFromIdle es s = true ∧ classifierCounts es s = 1 := by decide

/-- A cell without access, one with a read only, one per event for the first clause and for the second. -/
theorem witness_EventsTouchOnlyTheirElements :
    (mayRead (.edgeA .low) .medium = false ∧ mayWrite (.edgeA .low) .medium = false) ∧
    (mayRead .recallFreqs .pos = false ∧ mayWrite .recallFreqs .pos = false) ∧
    (∃ t, exec (.edgeA .low) rest = .next t ∧ mayWrite (.edgeA .low) .lvlB = false) ∧
    (∃ t, exec (.store [145000000]) rest = .next t ∧ mayWrite (.store [145000000]) .medReady = false) :=
  ⟨by decide, by decide, ⟨_, rfl, by decide⟩, ⟨_, rfl, by decide⟩⟩

theorem witness_EdgeDeliveryIsEnabledByActivateUntilReset :
    (∃ t, exec .activate State.reset = .next t) ∧ (∃ t, exec .reset rest = .next t) ∧
    (∃ t, exec .read rest = .next t) ∧ State.reset.armed = false ∧ rest.armed = true :=
  ⟨⟨_, rfl⟩, ⟨_, rfl⟩, ⟨_, rfl⟩, by decide, by decide⟩

theorem witness_PinsAreNeitherReadNorWritten : ∃ t, exec .reset rest = .next t := ⟨_, rfl⟩

/-- V18: both orders are interleavings of what the two lines issue. -/
theorem witness_CrossLineOrderDecidesTheDirection :
    rest.armed = true ∧ rest.lvlA = .high ∧ rest.lvlB = .high ∧ rest.dstate = .idle ∧
    interleaves (fun | .irqA => [.edgeA .low] | .irqB => [.edgeB .low] | _ => []) [.edgeA .low, .edgeB .low] ∧
    interleaves (fun | .irqA => [.edgeA .low] | .irqB => [.edgeB .low] | _ => []) [.edgeB .low, .edgeA .low] :=
  ⟨rfl, rfl, rfl, rfl, fun a => by cases a <;> rfl, fun a => by cases a <;> rfl⟩

theorem witness_InitMediumSetsReadyAndErasesNothing : rest.medReady = true := by decide

theorem witness_MediumEventsAreRefusedBeforeInit : State.reset.medReady = false ∧ rest.medReady = true := by decide

/-- Valid prefixes of length 0, 2 (with an invalid value after it) and 9. -/
theorem witness_StoreWritesTheValidPrefixThenTheSentinel :
    State.reset.medReady = false ∧ rest.medReady = true ∧ Memory.wf rest.medium = true ∧
    ((Instr.store []).wf = true ∧ (validPrefix rest.params []).length < 9) ∧
    ((Instr.store [144800000, 145200000, 999999999]).wf = true ∧
      (validPrefix rest.params [144800000, 145200000, 999999999]).length = 2) ∧
    ((Instr.store (List.replicate 9 146500000)).wf = true ∧
      8 < (validPrefix rest.params (List.replicate 9 146500000)).length) := by decide

/-- On a fresh medium, and on one whose slot 1 is valid. -/
theorem witness_RecallRespondsWithTheValidPrefixOrTheDefaults :
    State.reset.medReady = false ∧ rest.medReady = true ∧ valid rest.params (Memory.slot rest.medium 1) = false ∧
    (onMedium [0x00, 0x44, 0x95, 0x08]).medReady = true ∧
    valid rest.params (Memory.slot (onMedium [0x00, 0x44, 0x95, 0x08]).medium 1) = true := by decide

theorem witness_RecallReturnsOneToNineValidValues :
    rest.medReady = true ∧ paramsLegal rest.params = true ∧ paramsLegal openBand = true := by decide

/-- Nothing between, events of both units between, and a power cycle between; a stored prefix that is empty and one that
is not. -/
theorem witness_RecallAfterStoreReturnsTheStoredPrefix :
    Memory.wf rest.medium = true ∧ paramsLegal rest.params = true ∧
    (∀ vs ∈ [[], [144800000, 145200000]], ∀ es ∈ [[], [Instr.edgeB .low, .read, .write 7, .recallFreqs, .initMedium],
      [.reset, .activate, .initMedium]], contractKept rest.armed rest.medReady (.store vs :: es ++ [.recallFreqs]) = true) ∧
    ∀ i ∈ [Instr.edgeB .low, .read, .write 7, .recallFreqs, .initMedium, .reset, .activate], ∀ ws, i ≠ .store ws := by
  refine ⟨by decide, by decide, by decide, ?_⟩
  simp

theorem witness_RecallStoreRecallRoundTrip :
    rest.medReady = true ∧ Memory.wf rest.medium = true ∧ paramsLegal rest.params = true := by decide

/-- F9: two media that differ only after the sentinel. -/
theorem witness_NothingAfterTheFirstInvalidEntryCounts :
    let s := onMedium [0x00, 0x44, 0x95, 0x08]
    let u : State := { s with medium := Memory.write32 s.medium 8 145000000 }
    s.medReady = true ∧ u = { s with medium := u.medium } ∧ u.medium ≠ s.medium ∧
      ∀ a, a < 4 * min ((mediumPrefix s.params s.medium).length + 1) 9 → Memory.read u.medium a = Memory.read s.medium a :=
  ⟨rfl, rfl, by decide, by decide⟩

/-- A stored prefix that is not empty, and one that is. -/
theorem witness_StoredListSurvivesAPowerCycle :
    rest.medReady = true ∧ Memory.wf rest.medium = true ∧ paramsLegal rest.params = true ∧
    validPrefix rest.params [144800000, 145200000] ≠ [] ∧ validPrefix rest.params [999999999] = [] := by decide

theorem witness_TheMediumIsReachedByStoreAndRecallOnly :
    (∃ t, exec (.write 5) rest = .next t) ∧ (∃ t, exec (.store [145000000]) rest = .next t) ∧
    ∃ t, exec .recallFreqs rest = .next t := ⟨⟨_, rfl⟩, ⟨_, rfl⟩, ⟨_, rfl⟩⟩

/-- The first byte of the medium and the last, before and after a put at offset 32. -/
theorem witness_PutReplacesFourBytesLeastSignificantFirst :
    Memory.wf rest.medium = true ∧ (31 < 32 ∨ 32 + 4 ≤ 31) ∧ (36 < 32 ∨ 32 + 4 ≤ 36) := by decide

theorem witness_CanonicalMediaWithEqualBytesAreEqual :
    Memory.wf [(0, 0x00), (35, 0x44)] = true ∧
    Memory.wf (Memory.write (Memory.write [] 35 0x44) 0 0x00) = true ∧
    ∀ a, Memory.read [(0, 0x00), (35, 0x44)] a = Memory.read (Memory.write (Memory.write [] 35 0x44) 0 0x00) a :=
  ⟨by decide, by decide, fun _ => rfl⟩

/-- P4's events (`STORE` and `RECALL` in the middle of a clockwise cycle) complete. -/
theorem witness_QdecRunsAsWithoutTheFstoreEvents :
    ∃ t, runEvents [.edgeB .low, .store [145000000], .edgeA .low, .recallFreqs] rest = .next t := ⟨_, rfl⟩

theorem witness_FstoreRunsAsWithoutTheQdecEvents :
    ∃ t, runEvents [.edgeB .low, .store [145000000], .edgeA .low, .recallFreqs] rest = .next t := ⟨_, rfl⟩

theorem witness_EdgesCommuteWithStoreAndRecall :
    isEdge (.edgeB .low) = true ∧ (Instr.recallFreqs = .recallFreqs ∨ ∃ vs, Instr.recallFreqs = .store vs) ∧
    (Instr.store [] = .recallFreqs ∨ ∃ vs, Instr.store [] = .store vs) := ⟨rfl, .inl rfl, .inr ⟨[], rfl⟩⟩

/-- V20: the `READ` between the two falling edges of a cycle. -/
theorem witness_ReadAnywhereChangesNothingElse :
    ∃ t, runEvents ([.write 10, .edgeB .low] ++ [.edgeA .low, .edgeB .high, .read]) rest = .next t := ⟨_, rfl⟩

theorem witness_ResponsesComeFromReadAndRecallOnly :
    (∃ t, exec .read rest = .next t) ∧ (∃ t, exec .recallFreqs rest = .next t) ∧ (∃ t, exec .initMedium rest = .next t) ∧
    (List.replicate 9 (145000000 : Freq)).length ≤ 9 := ⟨⟨_, rfl⟩, ⟨_, rfl⟩, ⟨_, rfl⟩, by decide⟩

/-- Kept and broken, for both contracts. -/
theorem witness_EventsCompleteExactlyWhereTheContractHolds :
    contractKept false false [.activate] = true ∧ contractKept true false [.activate] = false ∧
    contractKept false true [.recallFreqs] = true ∧ contractKept false false [.store []] = false := by decide

/-- V18 with a foreground boot: three agents interleaved. -/
theorem witness_EveryInterleavingOfALegalForegroundRuns :
    let issued : Agent → List Instr
      | .irqA => [.edgeA .low]
      | .irqB => [.edgeB .low]
      | .foreground => [.activate, .initMedium, .recallFreqs]
      | .environment => []
    interleaves issued [.edgeB .low, .activate, .initMedium, .edgeA .low, .recallFreqs] ∧
      issued .environment = [] ∧ contractKept State.reset.armed State.reset.medReady (issued .foreground) = true :=
  ⟨fun a => by cases a <;> rfl, rfl, rfl⟩

theorem witness_BootRunsFromEveryState : paramsLegal State.reset.params = true := by decide

theorem witness_DecodeOfEncodeIsTheEvent :
    (Instr.store (List.replicate 9 146500000)).wf = true ∧ (Instr.write 0x80000000).wf = true := by decide

theorem witness_DecodedBytesAreTheEncoding :
    decode [0x90, 0x01, 0x60, 0x27, 0xAC, 0x08, 0xA0] = .event (.store [145500000]) [0xA0] := by decide

/-- The shortest event and the longest. -/
theorem witness_EventLengthIsKnownFromItsFirstBytes :
    decode [0xF0] = .event .reset [] ∧
    decode (0x90 :: 0x09 :: List.replicate 36 0xFF) = .event (.store (List.replicate 9 0xFFFFFFFF)) [] := by decide

/-- One stream for each of the seven clauses, at the edge of its range. -/
theorem witness_ReservedEncodingsAreRefused :
    (∃ s : State, s.input = [0x00] ∧ (0x00 : Byte).extractLsb' 4 4 ∈ [0b0000#4, 0b0110#4]) ∧
    (∃ s : State, s.input = [0x11] ∧ (0x11 : Byte).extractLsb' 4 4 ∈ [0b0001#4, 0b0100#4] ∧
      (0x11 : Byte).extractLsb' 0 4 ≠ 0) ∧
    (∃ s : State, s.input = [0x22] ∧ (0x22 : Byte).extractLsb' 4 4 ∈ [0b0010#4, 0b0011#4] ∧
      (0x22 : Byte).extractLsb' 1 3 ≠ 0) ∧
    (∃ s : State, s.input = [0x90, 0x0A] ∧ 9 < ((0x0A : Byte).extractLsb' 0 4).toNat) ∧
    (∃ s : State, s.input = [0x90, 0x13] ∧ (0x13 : Byte).extractLsb' 4 4 ≠ 0) ∧
    (∃ s : State, s.input = [0x50, 0x01, 0x02, 0x03] ∧ ([0x01, 0x02, 0x03] : List Byte).length < 4) ∧
    (∃ s : State, s.input = [0x90]) ∧
    (∃ s : State, s.input = [0x90, 0x09] ∧ (0x09 : Byte).toNat ≤ 9 ∧ ([] : List Byte).length < 4 * (0x09 : Byte).toNat) :=
  ⟨⟨State.reset.withInput [0x00], rfl, by decide⟩, ⟨State.reset.withInput [0x11], rfl, by decide, by decide⟩,
    ⟨State.reset.withInput [0x22], rfl, by decide, by decide⟩, ⟨State.reset.withInput [0x90, 0x0A], rfl, by decide⟩,
    ⟨State.reset.withInput [0x90, 0x13], rfl, by decide⟩, ⟨State.reset.withInput [0x50, 0x01, 0x02, 0x03], rfl, by decide⟩,
    ⟨State.reset.withInput [0x90], rfl⟩, ⟨State.reset.withInput [0x90, 0x09], rfl, by decide, by decide⟩⟩

theorem witness_StepRunsTheDecodedEvent :
    decode (State.reset.withInput [0x40, 0xA0]).input = .event .read [0xA0] ∧ State.reset.input = [] := by decide

theorem witness_ATableWordRunsAsTheNextEvent :
    decodeTableWord 16 0x0290 = some (.store [0, 0]) ∧ decodeTableWord 40 0xFFFFFFFF50 = some (.write 0xFFFFFFFF) := by
  decide

theorem witness_TheByteStreamRunsAsItsEventTuples :
    ∀ i ∈ [Instr.activate, .write 0xFFFFFFFF, .store (List.replicate 9 0xFFFFFFFF)], i.wf = true := by decide

theorem witness_TraceTextReadsBack :
    ∀ i ∈ [Instr.write 0x80000000, .store [], .store (List.replicate 9 0xFFFFFFFF)], i.wf = true := by decide

/-- Reset meets the invariant, and a step from it with an event waiting answers a next state. -/
theorem witness_EveryStepKeepsTheInvariant :
    (State.reset.withInput [0x10]).Inv ∧ ∃ t, step (State.reset.withInput [0x10]) = .next t :=
  ⟨⟨by decide, by decide, by decide, by decide, rfl, by decide, by decide⟩, ⟨_, rfl⟩⟩

end Sys2Proof.Tests
end

section
/-!
Scope (00_scope.md): what each unit shows after every operation, so that the other unit's events can be left out of a
run (R7); the foreground's contract under every interleaving (R12); one step of the event stream (R10).
-/

namespace Sys2Proof.Machine

/-! ### QDEC's part after each operation -/

@[simp] theorem qdecView_arm (s : State) : s.arm.qdecView = { s.qdecView with armed := true } := rfl

@[simp] theorem qdecView_withPos (s : State) (n : Position) :
    (s.withPos n).qdecView = { s.qdecView with pos := n } := rfl

@[simp] theorem qdecView_ready (s : State) : s.ready.qdecView = s.qdecView := rfl

@[simp] theorem qdecView_respond_position (s : State) (p : Position) :
    (s.respond (.position p)).qdecView =
      { s.qdecView with positions := s.qdecView.positions ++ [.position p] } := by
  simp [State.qdecView, isPosition]

@[simp] theorem qdecView_storeList (vs : List Freq) (s : State) : (storeList vs s).qdecView = s.qdecView := by
  rw [storeList_eq]
  rfl

@[simp] theorem qdecView_recallList (s : State) : (recallList s).qdecView = s.qdecView := by
  simp [recallList_eq, State.qdecView, isPosition]

/-- RESET leaves of QDEC's part only what was shown on the port (R137). -/
theorem qdecView_resetBlock (s : State) :
    (resetBlock s).qdecView =
      ⟨Defaults.level, Defaults.level, .idle, Defaults.pos, Defaults.armed, s.qdecView.positions⟩ := rfl

theorem qdecView_eq_iff (s s' : State) :
    s'.qdecView = s.qdecView ↔
      s'.lvlA = s.lvlA ∧ s'.lvlB = s.lvlB ∧ s'.dstate = s.dstate ∧ s'.pos = s.pos ∧ s'.armed = s.armed ∧
        s'.responses.filter isPosition = s.responses.filter isPosition := by
  simp [State.qdecView]

/-- What an edge leaves of QDEC's part depends on QDEC's part and the parameters only. -/
theorem qdecView_deliverEdge_congr (line : Line) (l : Level) {s s' : State} (hview : s'.qdecView = s.qdecView)
    (hparams : s'.params = s.params) : (deliverEdge line l s').qdecView = (deliverEdge line l s).qdecView := by
  obtain ⟨hlvlA, hlvlB, hdstate, hpos, harmed, hresponses⟩ := (qdecView_eq_iff s s').mp hview
  obtain ⟨a, b, d, p, hframe⟩ := deliverEdge_frame line l s
  rw [deliverEdge_congr line l harmed hlvlA hlvlB hdstate hpos hparams, hframe]
  simp [State.qdecView, harmed, hresponses]

/-! ### FSTORE's part after each operation -/

@[simp] theorem fstoreView_arm (s : State) : s.arm.fstoreView = s.fstoreView := rfl

@[simp] theorem fstoreView_withPos (s : State) (n : Position) : (s.withPos n).fstoreView = s.fstoreView := rfl

@[simp] theorem fstoreView_ready (s : State) : s.ready.fstoreView = { s.fstoreView with medReady := true } := rfl

@[simp] theorem fstoreView_respond_position (s : State) (p : Position) :
    (s.respond (.position p)).fstoreView = s.fstoreView := by
  simp [State.fstoreView, isPosition]

@[simp] theorem fstoreView_deliverEdge (line : Line) (l : Level) (s : State) :
    (deliverEdge line l s).fstoreView = s.fstoreView := by
  obtain ⟨a, b, d, p, hframe⟩ := deliverEdge_frame line l s
  rw [hframe]
  rfl

@[simp] theorem fstoreView_resetBlock (s : State) :
    (resetBlock s).fstoreView = { s.fstoreView with medReady := Defaults.medReady } := rfl

theorem fstoreView_eq_iff (s s' : State) :
    s'.fstoreView = s.fstoreView ↔
      s'.medReady = s.medReady ∧ s'.medium = s.medium ∧ s'.durable = s.durable ∧ s'.mediumPort = s.mediumPort ∧
        (s'.responses.filter fun r => !isPosition r) = s.responses.filter fun r => !isPosition r := by
  simp [State.fstoreView]

/-- What `STORE` leaves of FSTORE's part depends on FSTORE's part and the parameters only. -/
theorem fstoreView_storeList_congr (vs : List Freq) {s s' : State} (hview : s'.fstoreView = s.fstoreView)
    (hparams : s'.params = s.params) : (storeList vs s').fstoreView = (storeList vs s).fstoreView := by
  obtain ⟨hready, hmedium, -, hport, hresponses⟩ := (fstoreView_eq_iff s s').mp hview
  rw [storeList_congr vs hparams hmedium hport, storeList_eq vs s]
  simp [State.fstoreView, hready, hresponses]

/-- What `RECALL` leaves of FSTORE's part depends on FSTORE's part and the parameters only. -/
theorem fstoreView_recallList_congr {s s' : State} (hview : s'.fstoreView = s.fstoreView)
    (hparams : s'.params = s.params) : (recallList s').fstoreView = (recallList s).fstoreView := by
  obtain ⟨hready, hmedium, hdurable, hport, hresponses⟩ := (fstoreView_eq_iff s s').mp hview
  simp [recallList_eq, State.fstoreView, hready, hmedium, hdurable, hport, hparams, hresponses]

/-! ### One event on each unit's part -/

/-- An FSTORE event leaves QDEC's part (R7). -/
theorem exec_fstore_qdecView {i : Instr} {s t : State} (hi : unitOf i = .fstore) (h : exec i s = .next t) :
    t.qdecView = s.qdecView := by
  obtain ⟨rfl, _, _⟩ | ⟨l, rfl, _⟩ | ⟨l, rfl, _⟩ | ⟨rfl, _⟩ | ⟨n, rfl, _⟩ | ⟨_, rfl⟩ | ⟨vs, _, _, rfl⟩ | ⟨_, _, rfl⟩ |
    ⟨rfl, _⟩ := exec_cases h
  · cases hi
  · cases hi
  · cases hi
  · cases hi
  · cases hi
  · exact qdecView_ready s
  · exact qdecView_storeList vs s
  · exact qdecView_recallList s
  · cases hi

/-- A QDEC event leaves FSTORE's part (R7). -/
theorem exec_qdec_fstoreView {i : Instr} {s t : State} (hi : unitOf i = .qdec) (h : exec i s = .next t) :
    t.fstoreView = s.fstoreView := by
  obtain ⟨_, _, rfl⟩ | ⟨l, _, rfl⟩ | ⟨l, _, rfl⟩ | ⟨_, rfl⟩ | ⟨n, _, rfl⟩ | ⟨rfl, _⟩ | ⟨vs, rfl, _, _⟩ | ⟨rfl, _, _⟩ |
    ⟨rfl, _⟩ := exec_cases h
  · exact fstoreView_arm s
  · exact fstoreView_deliverEdge .a l s
  · exact fstoreView_deliverEdge .b l s
  · exact fstoreView_respond_position s s.pos
  · exact fstoreView_withPos s n
  · cases hi
  · cases hi
  · cases hi
  · cases hi

/-- Whether another event completes, and what it leaves of QDEC's part, depends on QDEC's part and the parameters
only (R7). -/
theorem exec_qdecView_congr {i : Instr} {s s' t : State} (hi : unitOf i ≠ .fstore) (hview : s'.qdecView = s.qdecView)
    (hparams : s'.params = s.params) (h : exec i s = .next t) :
    ∃ t', exec i s' = .next t' ∧ t'.qdecView = t.qdecView := by
  obtain ⟨-, -, -, hpos, harmed, -⟩ := (qdecView_eq_iff s s').mp hview
  obtain ⟨rfl, hs, rfl⟩ | ⟨l, rfl, rfl⟩ | ⟨l, rfl, rfl⟩ | ⟨rfl, rfl⟩ | ⟨n, rfl, rfl⟩ | ⟨rfl, _⟩ | ⟨vs, rfl, _, _⟩ |
    ⟨rfl, _, _⟩ | ⟨rfl, rfl⟩ := exec_cases h
  · exact ⟨s'.arm, by simp [exec, execActivate, harmed, hs], by simp [hview]⟩
  · exact ⟨_, rfl, qdecView_deliverEdge_congr .a l hview hparams⟩
  · exact ⟨_, rfl, qdecView_deliverEdge_congr .b l hview hparams⟩
  · exact ⟨_, rfl, by simp [hview, hpos]⟩
  · exact ⟨_, rfl, by simp [hview]⟩
  · exact absurd rfl hi
  · exact absurd rfl hi
  · exact absurd rfl hi
  · exact ⟨_, rfl, by simp only [qdecView_resetBlock, hview]⟩

/-- Whether another event completes, and what it leaves of FSTORE's part, depends on FSTORE's part and the parameters
only (R7). -/
theorem exec_fstoreView_congr {i : Instr} {s s' t : State} (hi : unitOf i ≠ .qdec)
    (hview : s'.fstoreView = s.fstoreView) (hparams : s'.params = s.params) (h : exec i s = .next t) :
    ∃ t', exec i s' = .next t' ∧ t'.fstoreView = t.fstoreView := by
  obtain ⟨hready, -⟩ := (fstoreView_eq_iff s s').mp hview
  obtain ⟨rfl, _, _⟩ | ⟨l, rfl, _⟩ | ⟨l, rfl, _⟩ | ⟨rfl, _⟩ | ⟨n, rfl, _⟩ | ⟨rfl, rfl⟩ | ⟨vs, rfl, hs, rfl⟩ |
    ⟨rfl, hs, rfl⟩ | ⟨rfl, rfl⟩ := exec_cases h
  · exact absurd rfl hi
  · exact absurd rfl hi
  · exact absurd rfl hi
  · exact absurd rfl hi
  · exact absurd rfl hi
  · exact ⟨_, rfl, by simp [hview]⟩
  · exact ⟨_, exec_store (hready.trans hs) vs, fstoreView_storeList_congr vs hview hparams⟩
  · exact ⟨_, exec_recall (hready.trans hs), fstoreView_recallList_congr hview hparams⟩
  · exact ⟨_, rfl, by simp [hview]⟩

/-! ### A run without the other unit's events -/

/-- A run whose first event completes goes on from the state that event leaves (R10). -/
theorem runEvents_cons_of_exec {i : Instr} {s m : State} (h : exec i s = .next m) (es : List Instr) :
    runEvents (i :: es) s = runEvents es m := by
  rw [runEvents, h]
  rfl

/-- Where the dropped events leave a view and the kept events depend on that view and the parameters only, a run
completes without the dropped events and leaves the same view. -/
theorem runEvents_filter_view {V : Type} (view : State → V) (keep : Instr → Bool)
    (hdrop : ∀ {i s t}, keep i = false → exec i s = .next t → view t = view s)
    (hkeep : ∀ {i s s' t}, keep i = true → view s' = view s → s'.params = s.params → exec i s = .next t →
      ∃ t', exec i s' = .next t' ∧ view t' = view t)
    {es : List Instr} {s s' t : State} (h : runEvents es s = .next t) (hview : view s' = view s)
    (hparams : s'.params = s.params) : ∃ u, runEvents (es.filter keep) s' = .next u ∧ view u = view t := by
  induction es generalizing s s' with
  | nil =>
    cases h
    exact ⟨s', rfl, hview⟩
  | cons i es ih =>
    obtain ⟨m, hm, hrest⟩ := runEvents_cons_next h
    obtain ⟨hmparams, -⟩ := exec_frame hm
    cases hi : keep i with
    | false =>
      rw [List.filter_cons_of_neg (by simp [hi])]
      exact ih hrest (hview.trans (hdrop hi hm).symm) (hparams.trans hmparams.symm)
    | true =>
      obtain ⟨m', hm', hmview⟩ := hkeep hi hview hparams hm
      obtain ⟨hmparams', -⟩ := exec_frame hm'
      rw [List.filter_cons_of_pos hi, runEvents_cons_of_exec hm']
      exact ih hrest hmview (hmparams'.trans (hparams.trans hmparams.symm))

/-- Settles O36: FSTORE events leave QDEC's part, the other events read nothing else (R7). -/
theorem qdecRunsAsWithoutTheFstoreEvents : Obligations.QdecRunsAsWithoutTheFstoreEvents := by
  intro es s t h
  exact runEvents_filter_view State.qdecView _ (fun hi => exec_fstore_qdecView (by simpa using hi))
    (fun hi => exec_qdecView_congr (by simpa using hi)) h rfl rfl

/-- Settles O37: QDEC events leave FSTORE's part, the other events read nothing else (R7). -/
theorem fstoreRunsAsWithoutTheQdecEvents : Obligations.FstoreRunsAsWithoutTheQdecEvents := by
  intro es s t h
  exact runEvents_filter_view State.fstoreView _ (fun hi => exec_qdec_fstoreView (by simpa using hi))
    (fun hi => exec_fstoreView_congr (by simpa using hi)) h rfl rfl

/-! ### The callers' contract -/

/-- The first event of a run that keeps the contract completes (R120). -/
theorem exec_completes_of_contractKept {i : Instr} {es : List Instr} {s : State}
    (h : contractKept s.armed s.medReady (i :: es) = true) : ∃ t, exec i s = .next t := by
  cases i with
  | activate =>
    obtain ⟨harmed, -⟩ := Bool.and_eq_true_iff.mp h
    exact ⟨s.arm, if_neg (by simpa using harmed)⟩
  | store vs =>
    obtain ⟨hready, -⟩ := Bool.and_eq_true_iff.mp h
    exact ⟨_, exec_store hready vs⟩
  | recallFreqs =>
    obtain ⟨hready, -⟩ := Bool.and_eq_true_iff.mp h
    exact ⟨_, exec_recall hready⟩
  | edgeA l => exact ⟨_, rfl⟩
  | edgeB l => exact ⟨_, rfl⟩
  | read => exact ⟨_, rfl⟩
  | write n => exact ⟨_, rfl⟩
  | initMedium => exact ⟨_, rfl⟩
  | reset => exact ⟨_, rfl⟩

/-- A run whose callers keep the contract completes (R120, R140, R141). -/
theorem runEvents_completes_of_contractKept {es : List Instr} {s : State}
    (h : contractKept s.armed s.medReady es = true) : ∃ t, runEvents es s = .next t := by
  induction es generalizing s with
  | nil => exact ⟨s, rfl⟩
  | cons i es ih =>
    obtain ⟨m, hm⟩ := exec_completes_of_contractKept h
    rw [contractKept_cons hm] at h
    rw [runEvents_cons_of_exec hm]
    exact ih h

/-- Without RESET, the contract is the foreground's alone: no handler takes part in it (R12). -/
theorem contractKept_filter_foreground {es : List Instr} (hes : ∀ i ∈ es, agentOf i ≠ .environment)
    (armed ready : Bool) :
    contractKept armed ready (es.filter fun i => decide (agentOf i = .foreground)) = contractKept armed ready es := by
  induction es generalizing armed ready with
  | nil => rfl
  | cons i es ih =>
    obtain ⟨hi, hrest⟩ := List.forall_mem_cons.mp hes
    have ih := ih hrest
    cases i with
    | reset => exact absurd rfl hi
    | edgeA l => exact ih armed ready
    | edgeB l => exact ih armed ready
    | read => exact ih armed ready
    | write n => exact ih armed ready
    | initMedium => exact ih armed true
    | activate => exact congrArg (!armed && ·) (ih true ready)
    | store vs => exact congrArg (ready && ·) (ih armed ready)
    | recallFreqs => exact congrArg (ready && ·) (ih armed ready)

/-- Settles O43: the interleaving keeps the contract because the foreground's own sequence does. -/
theorem everyInterleavingOfALegalForegroundRuns : Obligations.EveryInterleavingOfALegalForegroundRuns := by
  intro issued es s hes henvironment hforeground
  have hnoReset : ∀ i ∈ es, agentOf i ≠ .environment := by
    simpa [henvironment, List.filter_eq_nil_iff] using hes .environment
  rw [← hes .foreground, contractKept_filter_foreground hnoReset] at hforeground
  exact runEvents_completes_of_contractKept hforeground

/-! ### One step of the event stream -/

/-- With no event waiting a step changes nothing (R13). -/
theorem step_of_input_nil {s : State} (h : s.input = []) : step s = .next s := by
  simp [step, fetch, h]

/-- A step runs the event at the head of the stream with its bytes taken (R10, R59). -/
theorem step_of_decode {s : State} {i : Instr} {rest : List Byte} (h : decode s.input = .event i rest) :
    step s = exec i (s.withInput rest) := by
  match hin : s.input with
  | [] => simp [hin, decode] at h
  | b :: bs =>
    rw [hin] at h
    simp [step, fetch, hin, h]

/-- Settles O50: the step by the two cases of the stream's head. -/
theorem stepRunsTheDecodedEvent : Obligations.StepRunsTheDecodedEvent :=
  ⟨fun _ _ _ h => step_of_decode h, fun _ h => step_of_input_nil h⟩

end Sys2Proof.Machine
end

section
/-!
State (10_state.md): the invariant every step keeps (R35), where `pos` counts (R36), which elements an event touches
(R33), the pins (R26).
-/

namespace Sys2Proof.Machine

/-! ### What every step keeps -/

/-- The invariant speaks of the parameters, the pins, the medium and the two ports only. -/
theorem State.Inv.of_eq {s t : State} (h : s.Inv) (hparams : t.params = s.params) (hpinA : t.pinA = s.pinA)
    (hpinB : t.pinB = s.pinB) (hmedium : t.medium = s.medium) (hdurable : t.durable = s.durable)
    (hresponses : t.responses = s.responses) (hport : t.mediumPort = s.mediumPort) : t.Inv where
  params_legal := by rw [hparams]; exact h.params_legal
  pins_differ := by rw [hpinA, hpinB]; exact h.pins_differ
  medium_wf := by rw [hmedium]; exact h.medium_wf
  medium_within := by rw [hmedium, hparams]; exact h.medium_within
  all_committed := by rw [hdurable, hmedium]; exact h.all_committed
  responses_legal := by rw [hresponses, hparams]; exact h.responses_legal
  port_legal := by rw [hport]; exact h.port_legal

/-- A legal response keeps the invariant (R67, R112). -/
theorem State.Inv.respond {s : State} (h : s.Inv) {r : Response} (hr : responseLegal s.params r = true) :
    (s.respond r).Inv :=
  { h with responses_legal := by simp [h.responses_legal, hr] }

/-- Legal operations on the medium port keep the invariant (R48). -/
theorem State.Inv.append_port {s : State} (h : s.Inv) {ops : List MediumOp} (hops : ops.all mediumOpLegal = true) :
    State.Inv { s with mediumPort := s.mediumPort ++ ops } :=
  { h with port_legal := by rw [List.all_append, h.port_legal, hops]; rfl }

/-- An edge keeps the invariant: it writes none of what the invariant speaks of (R80, R81). -/
theorem State.Inv.deliverEdge {s : State} (h : s.Inv) (line : Line) (l : Level) : (deliverEdge line l s).Inv := by
  obtain ⟨a, b, d, p, hframe⟩ := deliverEdge_frame line l s
  rw [hframe]
  exact h.of_eq rfl rfl rfl rfl rfl rfl rfl

/-- `RECALL` keeps the invariant: its gets stay in the region and its response is legal (R48, R112). -/
theorem State.Inv.recallList {s : State} (h : s.Inv) : (recallList s).Inv := by
  rw [recallList_eq]
  exact (h.append_port (getsFrom_legal _ 1 (by omega) (by omega))).respond
    (responseLegal_recallValues h.params_legal s.medium)

/-- The put that ends the loop of `STORE` stays in the region (R48). -/
theorem sentinelPut_legal {n i : Nat} (k : Nat) (hi : 1 ≤ i) (hn : i + n ≤ 10) :
    (sentinelPut n i k).all mediumOpLegal = true := by
  unfold sentinelPut
  split
  · exact putsFrom_legal [Config.sentinel] (i + k) (by omega) (by simp only [List.length_singleton]; omega)
  · rfl

/-- The loop of `STORE` issues legal operations only (R48, R108). -/
theorem storeLoop_port_legal (vs : List Freq) {s : State} (h : s.mediumPort.all mediumOpLegal = true) :
    (storeLoop 9 1 vs s).mediumPort.all mediumOpLegal = true := by
  have hlen : ((vs.take 9).takeWhile (valid s.params)).length ≤ 9 := validPrefix_length_le s.params vs
  rw [storeLoop_port, List.all_append, List.all_append, h, putsFrom_legal _ 1 (by omega) (by omega),
    sentinelPut_legal _ (by omega) (by omega)]
  rfl

/-- Legal parameters leave room for the region on the medium (R40). -/
theorem regionBytes_le_of_paramsLegal {c : Params} (h : paramsLegal c = true) : Config.regionBytes ≤ c.mediumSize := by
  simp only [paramsLegal, Bool.and_eq_true, decide_eq_true_eq] at h
  exact h.2

/-- `STORE` keeps the invariant: its puts stay in the region, and the commit after them leaves nothing uncommitted
(R35, R40, R48). -/
theorem State.Inv.storeList {s : State} (h : s.Inv) (vs : List Freq) : (storeList vs s).Inv := by
  rw [storeList_eq]
  exact { h with
    medium_wf := storeLoop_wf 9 1 vs h.medium_wf
    medium_within := storeLoop_within 9 1 vs (by omega) h.medium_within (regionBytes_le_of_paramsLegal h.params_legal)
    all_committed := rfl
    port_legal := by rw [List.all_append, storeLoop_port_legal vs h.port_legal]; rfl }

/-- Every event that completes keeps the invariant. -/
theorem exec_keeps_inv {i : Instr} {s t : State} (h : s.Inv) (hexec : exec i s = .next t) : t.Inv := by
  obtain ⟨-, -, rfl⟩ | ⟨l, -, rfl⟩ | ⟨l, -, rfl⟩ | ⟨-, rfl⟩ | ⟨n, -, rfl⟩ | ⟨-, rfl⟩ | ⟨vs, -, -, rfl⟩ | ⟨-, -, rfl⟩ |
    ⟨-, rfl⟩ := exec_cases hexec
  · exact h.of_eq rfl rfl rfl rfl rfl rfl rfl
  · exact h.deliverEdge .a l
  · exact h.deliverEdge .b l
  · exact h.respond rfl
  · exact h.of_eq rfl rfl rfl rfl rfl rfl rfl
  · exact h.of_eq rfl rfl rfl rfl rfl rfl rfl
  · exact h.storeList vs
  · exact h.recallList
  · exact h.of_eq rfl rfl rfl rfl rfl rfl rfl

/-- Settles O54: by what a step can do, each event keeping the invariant. -/
theorem everyStepKeepsTheInvariant : Obligations.EveryStepKeepsTheInvariant := by
  intro s t h hstep
  obtain ⟨-, rfl⟩ | ⟨i, rest, -, hexec⟩ := step_cases hstep
  · exact h
  · exact exec_keeps_inv (h.of_eq (t := s.withInput rest) rfl rfl rfl rfl rfl rfl rfl) hexec

/-! ### Where the position counts -/

/-- An event that is no edge changes `pos` by `WRITE` and by RESET only (R36). -/
theorem exec_pos_of_not_edge {i : Instr} {s t : State} (h : exec i s = .next t) (hi : isEdge i = false) :
    t.pos = s.pos ∨ i = .write t.pos ∨ (i = .reset ∧ t.pos = 0) := by
  obtain ⟨-, -, rfl⟩ | ⟨l, rfl, -⟩ | ⟨l, rfl, -⟩ | ⟨-, rfl⟩ | ⟨n, rfl, rfl⟩ | ⟨-, rfl⟩ | ⟨vs, -, -, rfl⟩ | ⟨-, -, rfl⟩ |
    ⟨rfl, rfl⟩ := exec_cases h
  · exact .inl rfl
  · exact nomatch hi
  · exact nomatch hi
  · exact .inl rfl
  · exact .inr (.inl rfl)
  · exact .inl rfl
  · exact .inl (by rw [storeList_eq])
  · exact .inl (by rw [recallList_eq])
  · exact .inr (.inr ⟨rfl, rfl⟩)

/-- An edge event that completes leaves what its line's delivery leaves. -/
theorem exec_edge_next {i : Instr} {s t : State} (h : exec i s = .next t) (hi : isEdge i = true) :
    ∃ line l, t = deliverEdge line l s := by
  obtain ⟨line, l, hedge⟩ := exec_edge hi
  rw [hedge] at h
  cases h
  exact ⟨line, l, rfl⟩

/-- Settles O14: an edge by what the classifier can do to `pos`, every other event by its meaning. -/
theorem positionChangesOnlyAtDetentsWriteAndReset : Obligations.PositionChangesOnlyAtDetentsWriteAndReset := by
  intro i s t h
  cases hi : isEdge i with
  | false =>
    refine ⟨fun hne => .inr (.inr ?_), nofun, nofun⟩
    exact (exec_pos_of_not_edge h hi).resolve_left hne
  | true =>
    obtain ⟨line, l, rfl⟩ := exec_edge_next h hi
    obtain ⟨hs, ht, hpos⟩ | ⟨hs, ht, hpos⟩ | ⟨hpos, hcw, hccw⟩ := deliverEdge_pos line l s
    · exact ⟨fun _ => .inl ⟨rfl, hs, ht, hpos⟩, fun _ _ _ => hpos, fun _ hs' _ => by simp [hs] at hs'⟩
    · exact ⟨fun _ => .inr (.inl ⟨rfl, hs, ht, hpos⟩), fun _ hs' _ => by simp [hs] at hs', fun _ _ _ => hpos⟩
    · exact ⟨fun hne => absurd hpos hne, fun _ hs ht => absurd ⟨hs, ht⟩ hcw, fun _ hs ht => absurd ⟨hs, ht⟩ hccw⟩

/-! ### At most one count between two visits to `IDLE` -/

/-- How many counts the classifier can still make from a direction state before it is in `IDLE` again (R36): one until
the detent, none after it. -/
def countsLeft : DState → Nat
  | .idle | .cw1 | .ccw1 => 1
  | .cw2 | .cw3 | .ccw2 | .ccw3 => 0

/-- Past the detent the only way on is back to `IDLE` (R86, R87, R89, R90). -/
theorem classify_of_countsLeft_zero {d : DState} (h : countsLeft d = 0) (c : Params) (a b : Level) (p : Position) :
    (classify c d a b p).1 = .idle ∨ countsLeft (classify c d a b p).1 = 0 := by
  cases d with
  | idle | cw1 | ccw1 => exact nomatch h
  | cw2 => cases b <;> simp [classify, classifyCw2, countsLeft]
  | cw3 => cases a <;> simp [classify, classifyCw3, countsLeft]
  | ccw2 => cases a <;> simp [classify, classifyCcw2, countsLeft]
  | ccw3 => cases b <;> simp [classify, classifyCcw3, countsLeft]

theorem countsLeft_le_one (d : DState) : countsLeft d ≤ 1 := by cases d <;> decide

/-- An armed edge on either line takes `dstate` from one classifier run on the new pair (R80, R81). -/
theorem deliverEdge_armed_dstate {s : State} (h : s.armed = true) (line : Line) (l : Level) :
    (deliverEdge line l s).dstate =
      (classify s.params s.dstate (s.withLevel line l).lvlA (s.withLevel line l).lvlB s.pos).1 := by
  cases line with
  | a => rw [deliverEdge_a_armed h]; rfl
  | b => rw [deliverEdge_b_armed h]; rfl

/-- Short of `IDLE` an edge gives the classifier no further count. -/
theorem countsLeft_deliverEdge_le {line : Line} {l : Level} {s : State} (h : (deliverEdge line l s).dstate ≠ .idle) :
    countsLeft (deliverEdge line l s).dstate ≤ countsLeft s.dstate := by
  obtain hzero | hone := Nat.le_one_iff_eq_zero_or_eq_one.mp (countsLeft_le_one s.dstate)
  · cases harmed : s.armed with
    | false => rw [deliverEdge_unarmed harmed]
    | true =>
      rw [deliverEdge_armed_dstate harmed] at h ⊢
      exact ((classify_of_countsLeft_zero hzero _ _ _ _).resolve_left h).le.trans (Nat.zero_le _)
  · rw [hone]
    exact countsLeft_le_one _

/-- An edge that changes `pos` makes the one count that was left. -/
theorem countsLeft_of_deliverEdge_pos_ne {line : Line} {l : Level} {s : State}
    (h : (deliverEdge line l s).pos ≠ s.pos) :
    countsLeft s.dstate = 1 ∧ countsLeft (deliverEdge line l s).dstate = 0 := by
  obtain ⟨hs, ht, -⟩ | ⟨hs, ht, -⟩ | ⟨hpos, -⟩ := deliverEdge_pos line l s
  · rw [hs, ht]; exact ⟨rfl, rfl⟩
  · rw [hs, ht]; exact ⟨rfl, rfl⟩
  · exact absurd hpos h

/-- One event of a run: what the classifier counts in it, and what it counts in the rest. -/
theorem classifierCounts_cons {i : Instr} {s t : State} (h : exec i s = .next t) (es : List Instr) :
    classifierCounts (i :: es) s =
      (if isEdge i = true ∧ t.pos ≠ s.pos then 1 else 0) + classifierCounts es t := by
  simp only [classifierCounts, h]

/-- After the first event of a run that stays away from `IDLE` the rest stays away too, and only the last event may
visit `IDLE`. -/
theorem awayFromIdle_cons {i : Instr} {es : List Instr} {s t : State} (h : exec i s = .next t)
    (haway : awayFromIdle (i :: es) s = true) :
    awayFromIdle es t = true ∧ (es = [] ∨ agentOf i = .foreground ∨ t.dstate ≠ .idle) := by
  match es with
  | [] => exact ⟨rfl, .inl rfl⟩
  | j :: es =>
    simp only [awayFromIdle, h, Bool.and_eq_true, Bool.or_eq_true, decide_eq_true_eq] at haway
    exact ⟨haway.2, .inr haway.1⟩

/-- The event is a foreground event, an edge, or RESET (R9). -/
theorem isEdge_or_reset_of_agentOf_ne_foreground {i : Instr} (h : agentOf i ≠ .foreground) :
    isEdge i = true ∨ i = .reset := by
  cases i with
  | edgeA l | edgeB l => exact .inl rfl
  | reset => exact .inr rfl
  | activate | read | write n | initMedium | store vs | recallFreqs => exact absurd rfl h

/-- An event that visits no `IDLE` gives the classifier no further count. -/
theorem countsLeft_exec_le {i : Instr} {s t : State} (h : exec i s = .next t)
    (hvisit : agentOf i = .foreground ∨ t.dstate ≠ .idle) : countsLeft t.dstate ≤ countsLeft s.dstate := by
  by_cases hforeground : agentOf i = .foreground
  · rw [exec_foreground_dstate h hforeground]
  · have hne := hvisit.resolve_left hforeground
    obtain hi | rfl := isEdge_or_reset_of_agentOf_ne_foreground hforeground
    · obtain ⟨line, l, rfl⟩ := exec_edge_next h hi
      exact countsLeft_deliverEdge_le hne
    · obtain rfl : resetBlock s = t := by simpa [exec, execReset] using h
      exact absurd rfl hne

/-- An edge event that changes `pos` makes the one count that was left. -/
theorem countsLeft_of_exec_pos_ne {i : Instr} {s t : State} (h : exec i s = .next t) (hi : isEdge i = true)
    (hpos : t.pos ≠ s.pos) : countsLeft s.dstate = 1 ∧ countsLeft t.dstate = 0 := by
  obtain ⟨line, l, rfl⟩ := exec_edge_next h hi
  exact countsLeft_of_deliverEdge_pos_ne hpos

/-- Until the next visit to `IDLE` the classifier counts no more often than its direction state has counts left. -/
theorem classifierCounts_le_countsLeft {es : List Instr} {s : State} (h : awayFromIdle es s = true) :
    classifierCounts es s ≤ countsLeft s.dstate := by
  induction es generalizing s with
  | nil => exact Nat.zero_le _
  | cons i es ih =>
    match hexec : exec i s with
    | .fault r => exact nomatch r
    | .refused r => simp [classifierCounts, hexec]
    | .next t =>
      obtain ⟨hrest, hvisit⟩ := awayFromIdle_cons hexec h
      have hcounts := ih hrest
      rw [classifierCounts_cons hexec]
      split
      next hedge =>
        obtain ⟨hone, hzero⟩ := countsLeft_of_exec_pos_ne hexec hedge.1 hedge.2
        omega
      next =>
        rw [Nat.zero_add]
        obtain rfl | hvisit := hvisit
        · exact Nat.zero_le _
        · exact hcounts.trans (countsLeft_exec_le hexec hvisit)

/-- Settles O15: in `IDLE` one count is left. -/
theorem atMostOneCountBetweenIdleVisits : Obligations.AtMostOneCountBetweenIdleVisits := by
  intro es s hidle haway
  have hcounts := classifierCounts_le_countsLeft haway
  rwa [hidle] at hcounts

/-! ### The elements an event touches -/

/-- An edge neither reads nor writes FSTORE's elements (R33). -/
theorem deliverEdge_takeElement {e : Element} (he : e = .medReady ∨ e = .medium) (line : Line) (l : Level)
    (u s : State) :
    deliverEdge line l (State.takeElement e u s) = State.takeElement e u (deliverEdge line l s) := by
  obtain ⟨a, b, d, p, hframe⟩ := deliverEdge_frame line l s
  obtain rfl | rfl := he
  · rw [deliverEdge_congr (s := s) (s' := State.takeElement .medReady u s) line l rfl rfl rfl rfl rfl rfl, hframe]
    rfl
  · rw [deliverEdge_congr (s := s) (s' := State.takeElement .medium u s) line l rfl rfl rfl rfl rfl rfl, hframe]
    rfl

/-- `STORE` past its gate touches no element but the medium (R33). -/
theorem storeList_takeElement {e : Element} (he : e ≠ .medium) (vs : List Freq) (u s : State) :
    storeList vs (State.takeElement e u s) = State.takeElement e u (storeList vs s) := by
  rw [storeList_eq vs s]
  cases e with
  | medium => exact absurd rfl he
  | lvlA | lvlB | dstate | pos | armed | medReady => exact storeList_congr vs rfl rfl rfl

/-- `RECALL` past its gate touches no element but the medium (R33). -/
theorem recallList_takeElement {e : Element} (he : e ≠ .medium) (u s : State) :
    recallList (State.takeElement e u s) = State.takeElement e u (recallList s) := by
  rw [recallList_eq, recallList_eq]
  cases e with
  | medium => exact absurd rfl he
  | lvlA | lvlB | dstate | pos | armed | medReady => rfl

/-- Where an operation touches an element in no way, neither does it behind the gate of the medium events, which looks
at `med_ready` only (R103). -/
theorem whenReady_takeElement {f : State → State} {e : Element} (he : e ≠ .medReady) {u s : State}
    (hf : f (State.takeElement e u s) = State.takeElement e u (f s)) :
    whenReady (State.takeElement e u s) (f (State.takeElement e u s)) =
      mapNext (State.takeElement e u) (whenReady s (f s)) := by
  have hready : (State.takeElement e u s).medReady = s.medReady := by
    cases e with
    | medReady => exact absurd rfl he
    | lvlA | lvlB | dstate | pos | armed | medium => rfl
  rw [hf, whenReady, whenReady, hready]
  cases s.medReady <;> rfl

/-- An event neither reads nor writes the elements its row of the access matrix leaves out (R33, R78). -/
theorem exec_takeElement {i : Instr} {e : Element} (hr : mayRead i e = false) (hw : mayWrite i e = false)
    (u s : State) : exec i (State.takeElement e u s) = mapNext (State.takeElement e u) (exec i s) := by
  cases i with
  | activate =>
    cases e with
    | armed => exact nomatch hr
    | lvlA | lvlB | dstate | pos | medReady | medium =>
      cases h : s.armed <;> simp [exec, execActivate, State.takeElement, h, mapNext, andThen, State.arm]
  | edgeA l | edgeB l =>
    have he : e = .medReady ∨ e = .medium := by cases e <;> simp_all [mayRead]
    exact congrArg Host.Outcome.next (deliverEdge_takeElement he _ l u s)
  | read =>
    cases e with
    | pos => exact nomatch hr
    | lvlA | lvlB | dstate | armed | medReady | medium => rfl
  | write n =>
    cases e with
    | pos => exact nomatch hw
    | lvlA | lvlB | dstate | armed | medReady | medium => rfl
  | initMedium =>
    cases e with
    | medReady => exact nomatch hw
    | lvlA | lvlB | dstate | pos | armed | medium => rfl
  | store vs =>
    exact whenReady_takeElement (by rintro rfl; exact nomatch hr)
      (storeList_takeElement (by rintro rfl; exact nomatch hw) vs u s)
  | recallFreqs =>
    exact whenReady_takeElement (by rintro rfl; exact nomatch hr)
      (recallList_takeElement (by rintro rfl; exact nomatch hr) u s)
  | reset =>
    obtain rfl : e = .medium := by simpa [mayWrite] using hw
    rfl

/-- An edge writes no level but its own line's (R80, R81). -/
theorem deliverEdge_own_level (line : Line) (l : Level) (s : State) :
    ∃ l' d p, deliverEdge line l s = (s.withLevel line l').withClassified (d, p) := by
  by_cases harmed : s.armed = true
  · cases line with
    | a => exact ⟨l, _, _, deliverEdge_a_armed harmed l⟩
    | b => exact ⟨l, _, _, deliverEdge_b_armed harmed l⟩
  · have hkeep := deliverEdge_unarmed (by simpa using harmed) line l
    cases line with
    | a => exact ⟨s.lvlA, s.dstate, s.pos, hkeep⟩
    | b => exact ⟨s.lvlB, s.dstate, s.pos, hkeep⟩

/-- An event writes no element its row of the access matrix gives no `w` (R33). -/
theorem takeElement_exec {i : Instr} {e : Element} {s t : State} (h : exec i s = .next t)
    (hw : mayWrite i e = false) : State.takeElement e s t = t := by
  obtain ⟨rfl, -, rfl⟩ | ⟨l, rfl, rfl⟩ | ⟨l, rfl, rfl⟩ | ⟨rfl, rfl⟩ | ⟨n, rfl, rfl⟩ | ⟨rfl, rfl⟩ | ⟨vs, rfl, -, rfl⟩ |
    ⟨rfl, -, rfl⟩ | ⟨rfl, rfl⟩ := exec_cases h
  · cases e with
    | armed => exact nomatch hw
    | lvlA | lvlB | dstate | pos | medReady | medium => rfl
  · obtain ⟨l', d, p, hedge⟩ := deliverEdge_own_level .a l s
    rw [hedge]
    cases e with
    | lvlA | dstate | pos => exact nomatch hw
    | lvlB | armed | medReady | medium => rfl
  · obtain ⟨l', d, p, hedge⟩ := deliverEdge_own_level .b l s
    rw [hedge]
    cases e with
    | lvlB | dstate | pos => exact nomatch hw
    | lvlA | armed | medReady | medium => rfl
  · cases e <;> rfl
  · cases e with
    | pos => exact nomatch hw
    | lvlA | lvlB | dstate | armed | medReady | medium => rfl
  · cases e with
    | medReady => exact nomatch hw
    | lvlA | lvlB | dstate | pos | armed | medium => rfl
  · rw [storeList_eq]
    cases e with
    | medium => exact nomatch hw
    | lvlA | lvlB | dstate | pos | armed | medReady => rfl
  · rw [recallList_eq]
    cases e <;> rfl
  · obtain rfl : e = .medium := by simpa [mayWrite] using hw
    rfl

/-- Settles O19: the elements without access commute with the event, those without a write are kept. -/
theorem eventsTouchOnlyTheirElements : Obligations.EventsTouchOnlyTheirElements :=
  ⟨fun _ _ u s hr hw => exec_takeElement hr hw u s, fun _ _ _ _ h hw => takeElement_exec h hw⟩

/-! ### The pins -/

/-- Settles O21: every event acts the same under other pins and leaves the pins it finds. -/
theorem pinsAreNeitherReadNorWritten : Obligations.PinsAreNeitherReadNorWritten := by
  refine ⟨fun i s a b => ?_, fun i s t h => ?_, by decide⟩
  · exact exec_congr i (fun t => { t with pinA := a, pinB := b }) s ⟨fun _ => a, fun _ => b, id, fun _ => rfl⟩
  · obtain ⟨-, hpinA, hpinB, -⟩ := exec_frame h
    exact ⟨hpinA, hpinB⟩

end Sys2Proof.Machine
end

section
/-!
Memory (20_memory.md): the canonical form of the medium (R40), its primitives (R43 to R46), which events reach it (R39,
R51, R56), a stored list over a power cycle (R49), a `READ` anywhere in a run (R53).
-/

namespace Sys2Proof.Machine

/-! ### The canonical form -/

@[simp] theorem Memory.read_cons_same (k : Nat) (v : Byte) (rest : Memory) : Memory.read ((k, v) :: rest) k = v := by
  simp [Memory.read]

theorem Memory.read_cons_other {k a : Nat} (v : Byte) (rest : Memory) (h : k ≠ a) :
    Memory.read ((k, v) :: rest) a = Memory.read rest a := by
  simp [Memory.read, h]

/-- A canonical medium whose first offset is above `lo` lies above `lo`. -/
theorem Memory.above_of_wf_cons {k lo : Nat} {v : Byte} {rest : Memory} (hm : Memory.wf ((k, v) :: rest) = true)
    (h : lo < k) : Memory.above ((k, v) :: rest) lo = true := by
  obtain ⟨-, habove, -⟩ := Memory.wf_cons hm
  exact Bool.and_eq_true_iff.mpr ⟨decide_eq_true h, Memory.above_mono habove h.le⟩

/-- A medium with the bytes of a canonical one does not lie above the other's first offset: it lists that offset. -/
theorem Memory.not_above_of_read_eq {k : Nat} {v : Byte} {rest n : Memory} (hm : Memory.wf ((k, v) :: rest) = true)
    (h : ∀ a, Memory.read ((k, v) :: rest) a = Memory.read n a) : ¬ Memory.above n k = true := by
  intro habove
  obtain ⟨hv, -, -⟩ := Memory.wf_cons hm
  have hk := h k
  rw [Memory.read_cons_same, Memory.read_of_above habove le_rfl] at hk
  exact hv hk

/-- Two canonical media with the same bytes have the same first entry and the same bytes after it. -/
theorem Memory.cons_read_eq {k k' : Nat} {v v' : Byte} {m n : Memory} (hm : Memory.wf ((k, v) :: m) = true)
    (hn : Memory.wf ((k', v') :: n) = true)
    (h : ∀ a, Memory.read ((k, v) :: m) a = Memory.read ((k', v') :: n) a) :
    k = k' ∧ v = v' ∧ ∀ a, Memory.read m a = Memory.read n a := by
  have hle : ¬ k < k' := fun hlt => Memory.not_above_of_read_eq hm h (Memory.above_of_wf_cons hn hlt)
  have hge : ¬ k' < k := fun hlt =>
    Memory.not_above_of_read_eq hn (fun a => (h a).symm) (Memory.above_of_wf_cons hm hlt)
  obtain rfl : k = k' := by omega
  obtain ⟨-, habove, -⟩ := Memory.wf_cons hm
  obtain ⟨-, habove', -⟩ := Memory.wf_cons hn
  refine ⟨rfl, by simpa using h k, fun a => ?_⟩
  by_cases ha : k = a
  · rw [Memory.read_of_above habove ha.ge, Memory.read_of_above habove' ha.ge]
  · simpa [Memory.read_cons_other _ _ ha] using h a

/-- Settles O35, by induction on both lists: the first entries agree, then the rests. -/
theorem canonicalMediaWithEqualBytesAreEqual : Obligations.CanonicalMediaWithEqualBytesAreEqual := by
  intro m n hm hn h
  induction m generalizing n with
  | nil =>
    cases n with
    | nil => rfl
    | cons c n => exact absurd rfl (Memory.not_above_of_read_eq hn fun a => (h a).symm)
  | cons c m ih =>
    cases n with
    | nil => exact absurd rfl (Memory.not_above_of_read_eq hm h)
    | cons d n =>
      obtain ⟨hkey, hbyte, hrest⟩ := Memory.cons_read_eq hm hn h
      obtain ⟨-, -, hm'⟩ := Memory.wf_cons hm
      obtain ⟨-, -, hn'⟩ := Memory.wf_cons hn
      rw [ih n hm' hn' hrest, Prod.ext hkey hbyte]

/-! ### The primitives -/

/-- Settles O34: the bytes by the rules of a 32-bit write, the rest by what the primitives leave unchanged. -/
theorem putReplacesFourBytesLeastSignificantFirst : Obligations.PutReplacesFourBytesLeastSignificantFirst := by
  intro s off v hm
  obtain ⟨h0, h1, h2, h3⟩ := Memory.read_write32_bytes hm off v
  have houtside : ∀ a, a < off ∨ off + 4 ≤ a → Memory.read (s.medPut off v).medium a = Memory.read s.medium a :=
    fun a => Memory.read_write32_outside s.medium v
  have hget : ((s.medPut off v).medGet off).1 = v := Memory.read32_write32_same hm off v
  exact ⟨h0, h1, h2, h3, houtside, hget, rfl, rfl, fun _ => rfl, fun _ => rfl⟩

/-! ### Which events reach the medium -/

/-- `STORE` completes on a ready medium only, and then runs its loop and its commit (R103, R106). -/
theorem exec_store_next {vs : List Freq} {s t : State} (h : exec (.store vs) s = .next t) :
    s.medReady = true ∧ t = storeList vs s := by
  simpa using exec_cases h

/-- `RECALL` completes on a ready medium only, and then runs its loop and responds (R103, R110). -/
theorem exec_recall_next {s t : State} (h : exec .recallFreqs s = .next t) : s.medReady = true ∧ t = recallList s := by
  simpa using exec_cases h

theorem mayWrite_medium_of_not_store {i : Instr} (hi : ∀ vs, i ≠ .store vs) : mayWrite i .medium = false := by
  cases i with
  | store vs => exact absurd rfl (hi vs)
  | activate | edgeA | edgeB | read | write | initMedium | recallFreqs | reset => rfl

/-- Only `STORE` commits (R51). -/
theorem exec_durable {i : Instr} {s t : State} (h : exec i s = .next t) (hi : ∀ vs, i ≠ .store vs) :
    t.durable = s.durable :=
  (congrArg State.durable (takeElement_exec h (mayWrite_medium_of_not_store hi))).symm

/-- `STORE` leaves every byte past its region of nine slots (R40, R107). -/
theorem storeList_read_above_region (vs : List Freq) (s : State) {a : Nat} (ha : Config.regionBytes ≤ a) :
    Memory.read (storeList vs s).medium a = Memory.read s.medium a := by
  have hregion : slotOffset 1 + 4 * 9 ≤ a := ha
  exact storeLoop_read_outside 9 1 vs s le_rfl (.inr (by omega))

/-- No event changes a byte past the region (R40). -/
theorem exec_read_above_region {i : Instr} {s t : State} (h : exec i s = .next t) {a : Nat}
    (ha : Config.regionBytes ≤ a) : Memory.read t.medium a = Memory.read s.medium a := by
  by_cases hi : ∀ vs, i ≠ .store vs
  · rw [exec_medium h hi]
  · obtain ⟨vs, rfl⟩ : ∃ vs, i = .store vs := by simpa using hi
    obtain ⟨-, rfl⟩ := exec_store_next h
    exact storeList_read_above_region vs s ha

/-- Only `STORE` and `RECALL` use the medium port (R39, R56). -/
theorem exec_mediumPort {i : Instr} {s t : State} (h : exec i s = .next t) (hstore : ∀ vs, i ≠ .store vs)
    (hrecall : i ≠ .recallFreqs) : t.mediumPort = s.mediumPort := by
  cases i with
  | store vs => exact absurd rfl (hstore vs)
  | recallFreqs => exact absurd rfl hrecall
  | activate | edgeA | edgeB | read | write => exact congrArg FstoreView.mediumPort (exec_qdec_fstoreView rfl h)
  | initMedium | reset =>
    cases h
    rfl

/-- `RECALL` issues gets only (R51). -/
theorem recallList_mediumPort (s : State) :
    ∃ gs, (recallList s).mediumPort = s.mediumPort ++ gs ∧ ∀ o ∈ gs, ∃ off, o = .get off := by
  rw [recallList_eq]
  exact ⟨_, rfl, getsFrom_get _ 1⟩

/-- Settles O33: each clause by what one event leaves of the medium and of its port. -/
theorem theMediumIsReachedByStoreAndRecallOnly : Obligations.TheMediumIsReachedByStoreAndRecallOnly := by
  intro i s t h
  refine ⟨fun hi => ⟨exec_medium h hi, exec_durable h hi⟩, fun a => exec_read_above_region h, exec_mediumPort h, ?_⟩
  rintro rfl
  obtain ⟨-, rfl⟩ := exec_recall_next h
  exact recallList_mediumPort s

/-! ### A stored list over a power cycle -/

@[simp] theorem storeList_params (vs : List Freq) (s : State) : (storeList vs s).params = s.params := by
  rw [storeList_eq]

@[simp] theorem storeList_responses (vs : List Freq) (s : State) : (storeList vs s).responses = s.responses := by
  rw [storeList_eq]

/-- `RECALL` on the medium that a `STORE` left responds the valid values stored before the first
invalid one, or the two defaults where there are none (R110, R111). -/
theorem recallList_responses_of_stored {vs : List Freq} {s m : State} (hm : Memory.wf s.medium = true)
    (hp : paramsLegal s.params = true) (hmedium : m.medium = (storeList vs s).medium) (hparams : m.params = s.params) :
    (recallList m).responses = m.responses ++ [.frequencies (if validPrefix s.params vs = [] then
      [s.params.default1, s.params.default2] else validPrefix s.params vs)] := by
  rw [recallList_eq, hmedium, hparams, mediumPrefix_storeList hm hp, recallValues_ite]

/-- Settles O32: RESET and `INIT_MEDIUM` leave the medium and the responses that `STORE` left. -/
theorem storedListSurvivesAPowerCycle : Obligations.StoredListSurvivesAPowerCycle := by
  intro vs s hready hm hp
  have hrun : runEvents [.store vs, .reset, .initMedium, .recallFreqs] s =
      .next (recallList (resetBlock (storeList vs s)).ready) := by
    rw [runEvents_cons_of_exec (exec_store hready vs)]
    rfl
  refine ⟨_, hrun, ?_⟩
  rw [recallList_responses_of_stored (vs := vs) hm hp (by simp) (by simp)]
  simp

/-! ### A response put on the port before an event -/

theorem deliverEdge_withResponses (line : Line) (l : Level) (s : State) (rs : List Response) :
    deliverEdge line l { s with responses := rs } = { deliverEdge line l s with responses := rs } := by
  obtain ⟨a, b, d, p, hframe⟩ := deliverEdge_frame line l s
  rw [deliverEdge_congr line l (s := s) (s' := { s with responses := rs }) rfl rfl rfl rfl rfl rfl, hframe]

theorem deliverEdge_responses (line : Line) (l : Level) (s : State) :
    (deliverEdge line l s).responses = s.responses := by
  obtain ⟨a, b, d, p, hframe⟩ := deliverEdge_frame line l s
  rw [hframe]

/-- An event puts its responses after whatever the port carried before, and reads none of it (R67). -/
theorem exec_withResponses {i : Instr} {s t : State} (h : exec i s = .next t) :
    ∃ more, t.responses = s.responses ++ more ∧
      ∀ rs, exec i { s with responses := rs } = .next { t with responses := rs ++ more } := by
  obtain ⟨rfl, harmed, rfl⟩ | ⟨l, rfl, rfl⟩ | ⟨l, rfl, rfl⟩ | ⟨rfl, rfl⟩ | ⟨n, rfl, rfl⟩ | ⟨rfl, rfl⟩ |
    ⟨vs, rfl, hready, rfl⟩ | ⟨rfl, hready, rfl⟩ | ⟨rfl, rfl⟩ := exec_cases h
  · exact ⟨[], by simp, fun rs => by simp [exec, execActivate, harmed, State.arm]⟩
  · exact ⟨[], by simp [deliverEdge_responses], fun rs => by simp [exec, execEdgeA, deliverEdge_withResponses]⟩
  · exact ⟨[], by simp [deliverEdge_responses], fun rs => by simp [exec, execEdgeB, deliverEdge_withResponses]⟩
  · exact ⟨[.position s.pos], rfl, fun rs => rfl⟩
  · exact ⟨[], by simp, fun rs => by simp [exec, execWrite, State.withPos]⟩
  · exact ⟨[], by simp, fun rs => by simp [exec, execInitMedium, State.ready]⟩
  · refine ⟨[], by simp, fun rs => ?_⟩
    rw [exec_store (s := { s with responses := rs }) hready,
      storeList_congr vs (s := s) (s' := { s with responses := rs }) rfl rfl rfl, storeList_eq vs s, List.append_nil]
  · refine ⟨[.frequencies (recallValues s.params (mediumPrefix s.params s.medium))], by rw [recallList_eq],
      fun rs => ?_⟩
    rw [exec_recall (s := { s with responses := rs }) hready, recallList_eq, recallList_eq]
  · exact ⟨[], by simp, fun rs => by simp [exec, execReset, resetBlock]⟩

/-- A run puts its responses after whatever the port carried before, and reads none of it (R67). -/
theorem runEvents_withResponses {es : List Instr} {s t : State} (h : runEvents es s = .next t) :
    ∃ more, t.responses = s.responses ++ more ∧
      ∀ rs, runEvents es { s with responses := rs } = .next { t with responses := rs ++ more } := by
  induction es generalizing s with
  | nil =>
    cases h
    exact ⟨[], by simp, fun rs => by simp [runEvents]⟩
  | cons i es ih =>
    obtain ⟨m, hm, hrest⟩ := runEvents_cons_next h
    obtain ⟨first, hfirst, hexec⟩ := exec_withResponses hm
    obtain ⟨more, hmore, hrun⟩ := ih hrest
    refine ⟨first ++ more, by rw [hmore, hfirst, List.append_assoc], fun rs => ?_⟩
    rw [runEvents_cons_of_exec (hexec rs), hrun, List.append_assoc]

/-- A run of two parts completes where the first part does and the second does from there. -/
theorem runEvents_append_eq_next_iff {es fs : List Instr} {s t : State} :
    runEvents (es ++ fs) s = .next t ↔ ∃ m, runEvents es s = .next m ∧ runEvents fs m = .next t := by
  rw [runEvents_append]
  match runEvents es s with
  | .next m => simp [andThen]
  | .fault r => exact nomatch r
  | .refused r => simp [andThen]

/-- Settles O39: `READ` only appends a response, and the rest of the run reads no response. -/
theorem readAnywhereChangesNothingElse : Obligations.ReadAnywhereChangesNothingElse := by
  intro es fs s t h
  obtain ⟨m, hm, hrest⟩ := runEvents_append_eq_next_iff.mp h
  obtain ⟨more, hmore, hrun⟩ := runEvents_withResponses hrest
  have hread : runEvents (.read :: fs) m =
      .next { t with responses := m.responses ++ .position m.pos :: more } := by
    rw [List.append_cons]
    exact hrun (m.responses ++ [.position m.pos])
  exact ⟨m, more, _, hm, hmore, runEvents_append_eq_next_iff.mpr ⟨m, hm, hread⟩, rfl⟩

end Sys2Proof.Machine
end

section
/-!
Encoding (30_encoding.md): the decoder and the encoder are inverse to each other (R60 to R65, R69, R70), the length of
an event (R66), what is refused (R70), the responses (R67), the byte stream as its event tuples (R68), the trace text
and `BOOT` (R72, R73).
-/

namespace Sys2Proof

/-! ### Byte 0 and its operands -/

/-- A legal byte 0 hands the bytes after it to its row of the map (R60, R62). -/
theorem decode_cons_legal {b : Byte} {o : Opcode} (ho : opcodeOf (opcField b) = some o)
    (hsub : subLegal o.format (lowNibble b) = true) (bs : List Byte) :
    decode (b :: bs) = decodeOperands o (lowNibble b) bs := by
  simp [decode, ho, hsub]

/-- A byte 0 whose opcode is unassigned is rejected (R70 (a)). -/
theorem decode_cons_unassigned {b : Byte} (ho : opcodeOf (opcField b) = none) (bs : List Byte) :
    decode (b :: bs) = .rejected .unassignedOpcode := by
  simp [decode, ho]

/-- A byte 0 with a must-be-zero bit set is rejected (R70 (b)). -/
theorem decode_cons_mustBeZero {b : Byte} {o : Opcode} (ho : opcodeOf (opcField b) = some o)
    (hsub : subLegal o.format (lowNibble b) = false) (bs : List Byte) :
    decode (b :: bs) = .rejected .mustBeZero := by
  simp [decode, ho, hsub]

/-- What decodes has a legal byte 0, and operands its opcode's format reads. -/
theorem decode_event_cases {bs rest : List Byte} {i : Instr} (h : decode bs = .event i rest) :
    ∃ b tail o, bs = b :: tail ∧ opcodeOf (opcField b) = some o ∧ subLegal o.format (lowNibble b) = true ∧
      decodeOperands o (lowNibble b) tail = .event i rest := by
  match bs with
  | [] => exact nomatch h
  | b :: tail =>
    match ho : opcodeOf (opcField b) with
    | none => exact nomatch (decode_cons_unassigned ho tail).symm.trans h
    | some o =>
      match hsub : subLegal o.format (lowNibble b) with
      | false => exact nomatch (decode_cons_mustBeZero ho hsub tail).symm.trans h
      | true => exact ⟨b, tail, o, rfl, ho, hsub, (decode_cons_legal ho hsub tail).symm.trans h⟩

/-- Only format E has a `sub` field other than zero (R61). -/
theorem subLegal_of_ne_e {f : Format} (hf : f ≠ .e) (sub : BitVec 4) : subLegal f sub = (sub == 0) := by
  cases f with
  | e => exact absurd rfl hf
  | z | w | l => rfl

/-- The must-be-zero bits of an encoded byte 0 are zero (R61). -/
theorem subLegal_sub (i : Instr) : subLegal i.opcode.format i.sub = true := by
  cases i with
  | edgeA l | edgeB l => cases l <;> rfl
  | activate | read | write | initMedium | store | recallFreqs | reset => rfl

/-! ### The operands of formats E, W and L -/

theorem levelOfBit_bit (l : Level) : levelOfBit (l.bit.getLsbD 0) = l := by cases l <;> rfl

/-- A legal `sub` field of format E is the bit of the level it is read as (R63). -/
theorem bit_levelOfBit {sub : BitVec 4} (h : subLegal .e sub = true) : (levelOfBit (sub.getLsbD 0)).bit = sub := by
  revert sub
  decide

theorem decodeWrite_leBytes (n : Position) (rest : List Byte) :
    decodeWrite (leBytes n ++ rest) = .event (.write n) rest := by
  simp [decodeWrite, leBytes, le32_bytes]

/-- Format W takes the four bytes of the value it reads (R64). -/
theorem decodeWrite_event {bs rest : List Byte} {i : Instr} (h : decodeWrite bs = .event i rest) :
    ∃ n, i = .write n ∧ bs = leBytes n ++ rest := by
  unfold decodeWrite at h
  split at h
  next b1 b2 b3 b4 tail =>
    cases h
    exact ⟨_, rfl, by rw [leBytes_le32]; rfl⟩
  next => exact nomatch h

/-- A length byte in 0..9 with clear high bits has `len` values after it (R65). -/
theorem decodeStore_of_takeWords_some {b : Byte} {bs rest : List Byte} {vs : List Freq}
    (h : opcField b = 0 ∧ (lowNibble b).toNat ≤ Config.nSlots)
    (hvs : takeWords (lowNibble b).toNat bs = some (vs, rest)) :
    decodeStore (b :: bs) = .event (.store vs) rest := by
  simp only [decodeStore, if_pos h, hvs]

/-- Where the stream ends inside those values it is rejected (R70 (d)). -/
theorem decodeStore_of_takeWords_none {b : Byte} {bs : List Byte}
    (h : opcField b = 0 ∧ (lowNibble b).toNat ≤ Config.nSlots) (hvs : takeWords (lowNibble b).toNat bs = none) :
    decodeStore (b :: bs) = .rejected .truncated := by
  simp only [decodeStore, if_pos h, hvs]

/-- Another length byte is rejected (R70 (c)). -/
theorem decodeStore_cons_reserved {b : Byte} (h : ¬(opcField b = 0 ∧ (lowNibble b).toNat ≤ Config.nSlots))
    (bs : List Byte) : decodeStore (b :: bs) = .rejected .reservedLength := by
  simp only [decodeStore, if_neg h]

/-- A count up to nine fits the nibble it is sent in (R65). -/
theorem toNat_ofNat_of_le_nSlots {n : Nat} (h : n ≤ Config.nSlots) : (BitVec.ofNat 4 n).toNat = n := by
  rw [BitVec.toNat_ofNat, Nat.mod_eq_of_lt (Nat.lt_of_le_of_lt h (by decide))]

theorem decodeStore_operandBytes {vs : List Freq} (h : vs.length ≤ Config.nSlots) (rest : List Byte) :
    decodeStore ((Instr.store vs).operandBytes ++ rest) = .event (.store vs) rest := by
  have hlen := toNat_ofNat_of_le_nSlots h
  refine decodeStore_of_takeWords_some ⟨opcField_append _ _, ?_⟩ ?_
  · rw [lowNibble_append, hlen]
    exact h
  · rw [lowNibble_append, hlen]
    exact takeWords_leBytes vs rest

/-- Format L takes the length byte and the values of the list it reads (R65). -/
theorem decodeStore_event {bs rest : List Byte} {i : Instr} (h : decodeStore bs = .event i rest) :
    ∃ vs, i = .store vs ∧ vs.length ≤ Config.nSlots ∧ bs = (Instr.store vs).operandBytes ++ rest := by
  match bs with
  | [] => exact nomatch h
  | b :: tail =>
    by_cases hb : opcField b = 0 ∧ (lowNibble b).toNat ≤ Config.nSlots
    · match hvs : takeWords (lowNibble b).toNat tail with
      | none => exact nomatch (decodeStore_of_takeWords_none hb hvs).symm.trans h
      | some (vs, rest') =>
        cases (decodeStore_of_takeWords_some hb hvs).symm.trans h
        obtain ⟨hlen, htail⟩ := takeWords_some hvs
        obtain ⟨hopc, hle⟩ := hb
        refine ⟨vs, rfl, hlen ▸ hle, ?_⟩
        rw [Instr.operandBytes, hlen, BitVec.ofNat_toNat, BitVec.setWidth_eq, ← hopc, append_fields, htail]
        rfl
    · exact nomatch (decodeStore_cons_reserved hb tail).symm.trans h

/-! ### Decoding and encoding -/

/-- Reading the operand bytes of an event gives it back (R60, R63 to R65). -/
theorem decodeOperands_operandBytes {i : Instr} (hi : i.wf = true) (rest : List Byte) :
    decodeOperands i.opcode i.sub (i.operandBytes ++ rest) = .event i rest := by
  cases i with
  | edgeA l => exact congrArg (fun l => Decoded.event (.edgeA l) rest) (levelOfBit_bit l)
  | edgeB l => exact congrArg (fun l => Decoded.event (.edgeB l) rest) (levelOfBit_bit l)
  | write n => exact decodeWrite_leBytes n rest
  | store vs => exact decodeStore_operandBytes (of_decide_eq_true hi) rest
  | activate | read | initMedium | recallFreqs | reset => rfl

/-- What the operands decode to is well formed, sent under that opcode and `sub` field, and has those operand bytes
(R69). -/
theorem decodeOperands_event {o : Opcode} {sub : BitVec 4} {bs rest : List Byte} {i : Instr}
    (hsub : subLegal o.format sub = true) (h : decodeOperands o sub bs = .event i rest) :
    i.wf = true ∧ i.opcode = o ∧ i.sub = sub ∧ bs = i.operandBytes ++ rest := by
  cases o with
  | edgeA | edgeB =>
    cases h
    exact ⟨rfl, rfl, bit_levelOfBit hsub, rfl⟩
  | write =>
    obtain ⟨n, rfl, rfl⟩ := decodeWrite_event h
    exact ⟨rfl, rfl, (eq_of_beq hsub).symm, rfl⟩
  | store =>
    obtain ⟨vs, rfl, hlen, rfl⟩ := decodeStore_event h
    exact ⟨decide_eq_true hlen, rfl, (eq_of_beq hsub).symm, rfl⟩
  | activate | read | initMedium | recallFreqs | reset =>
    cases h
    exact ⟨rfl, rfl, (eq_of_beq hsub).symm, rfl⟩

/-- Settles O45: byte 0 gives the event's row of the map, the operand bytes the operands. -/
theorem decodeOfEncodeIsTheEvent : Obligations.DecodeOfEncodeIsTheEvent := by
  intro i rest hi
  have hopc : opcodeOf (opcField (i.opcode.code ++ i.sub)) = some i.opcode := by
    rw [opcField_append, opcodeOf_code]
  have hsub : lowNibble (i.opcode.code ++ i.sub) = i.sub := lowNibble_append _ _
  rw [encode, List.cons_append, decode_cons_legal hopc (by rw [hsub]; exact subLegal_sub i), hsub]
  exact decodeOperands_operandBytes hi rest

/-- Settles O46: the two fields of byte 0 and the operand bytes are those of the event read. -/
theorem decodedBytesAreTheEncoding : Obligations.DecodedBytesAreTheEncoding := by
  intro bs rest i h
  obtain ⟨b, tail, o, rfl, hopc, hsub, hops⟩ := decode_event_cases h
  obtain ⟨hwf, rfl, hisub, rfl⟩ := decodeOperands_event hsub hops
  refine ⟨hwf, ?_⟩
  rw [encode, code_of_opcodeOf hopc, hisub, append_fields, List.cons_append]

/-! ### The length of an event -/

/-- An event's bytes are as many as R66 says for its format. -/
theorem length_encode (i : Instr) : (encode i).length = i.byteLength := by
  cases i with
  | store vs => exact Laws.EncodedLength.store vs
  | activate | edgeA | edgeB | read | write | initMedium | recallFreqs | reset => rfl

/-- The first two bytes of an event give its length (R66). -/
theorem eventLength_encode {i : Instr} (hi : i.wf = true) (rest : List Byte) :
    eventLength ((encode i ++ rest).take 2) = some i.byteLength := by
  have hopc : opcodeOf (opcField (i.opcode.code ++ i.sub)) = some i.opcode := by
    rw [opcField_append, opcodeOf_code]
  simp only [encode, List.cons_append, List.take_succ_cons, eventLength, hopc]
  cases i with
  | store vs =>
    have hlen := toNat_ofNat_of_le_nSlots (of_decide_eq_true hi)
    simp [Instr.opcode, Opcode.format, Instr.operandBytes, Instr.byteLength, -BitVec.toNat_ofNat, hlen]
  | activate | edgeA | edgeB | read | write | initMedium | recallFreqs | reset => rfl

/-- The twelve lengths (R66). -/
theorem byteLength_mem {i : Instr} (hi : i.wf = true) :
    i.byteLength ∈ [1, 2, 5, 6, 10, 14, 18, 22, 26, 30, 34, 38] := by
  cases i with
  | store vs =>
    have hlen : vs.length ≤ 9 := of_decide_eq_true hi
    have hall : ∀ n ≤ 9, 2 + 4 * n ∈ [1, 2, 5, 6, 10, 14, 18, 22, 26, 30, 34, 38] := by decide
    exact hall _ hlen
  | write n => exact (by decide : 5 ∈ [1, 2, 5, 6, 10, 14, 18, 22, 26, 30, 34, 38])
  | activate | edgeA | edgeB | read | initMedium | recallFreqs | reset => exact List.mem_cons_self

/-- Settles O47: what decodes is the encoding of its event, and that has the length of its format. -/
theorem eventLengthIsKnownFromItsFirstBytes : Obligations.EventLengthIsKnownFromItsFirstBytes := by
  intro bs rest i h
  obtain ⟨hwf, rfl⟩ := decodedBytesAreTheEncoding bs rest i h
  refine ⟨by rw [length_encode, eventLength_encode hwf], List.length_append, ?_, ?_⟩
  · rw [length_encode]
    cases i <;> rfl
  · rw [length_encode]
    exact byteLength_mem hwf

end Sys2Proof

namespace Sys2Proof.Machine

/-! ### Reserved encodings -/

theorem opcodeOf_unassigned : ∀ c ∈ [0b0000#4, 0b0110#4, 0b0111#4, 0b1011#4, 0b1100#4, 0b1101#4, 0b1110#4],
    opcodeOf c = none := by decide

/-- The opcode values of formats Z, W and L (R62). -/
theorem opcodeOf_not_formatE {c : BitVec 4}
    (h : c ∈ [0b0001#4, 0b0100#4, 0b0101#4, 0b1000#4, 0b1001#4, 0b1010#4, 0b1111#4]) :
    ∃ o, opcodeOf c = some o ∧ o.format ≠ .e := by
  have hcodes : c ∈ (opcodeMap.filter fun o => decide (o.format ≠ .e)).map Opcode.code := h
  obtain ⟨o, ho, rfl⟩ := List.mem_map.mp hcodes
  exact ⟨o, opcodeOf_code o, of_decide_eq_true (List.mem_filter.mp ho).2⟩

/-- The opcode values of format E (R62). -/
theorem opcodeOf_formatE {c : BitVec 4} (h : c ∈ [0b0010#4, 0b0011#4]) :
    ∃ o, opcodeOf c = some o ∧ o.format = .e := by
  have hcodes : c ∈ (opcodeMap.filter fun o => decide (o.format = .e)).map Opcode.code := h
  obtain ⟨o, ho, rfl⟩ := List.mem_map.mp hcodes
  exact ⟨o, opcodeOf_code o, of_decide_eq_true (List.mem_filter.mp ho).2⟩

/-- `sub[3:1]` is byte 0 bits [3:1] (R61). -/
theorem lowNibble_extractLsb' (b : Byte) : (lowNibble b).extractLsb' 1 3 = b.extractLsb' 1 3 := by
  revert b
  decide

/-- A `STORE` with a clear `sub` field reads its operands by format L (R62). -/
theorem decode_store (bs : List Byte) : decode (0x90 :: bs) = decodeStore bs :=
  decode_cons_legal (b := 0x90) (o := .store) rfl rfl bs

/-- A `WRITE` with a clear `sub` field reads its operand by format W (R62). -/
theorem decode_write (bs : List Byte) : decode (0x50 :: bs) = decodeWrite bs :=
  decode_cons_legal (b := 0x50) (o := .write) rfl rfl bs

/-- A stream that ends inside a `WRITE`'s operand is rejected (R70 (d)). -/
theorem decodeWrite_truncated {bs : List Byte} (h : bs.length < 4) : decodeWrite bs = .rejected .truncated := by
  unfold decodeWrite
  split
  next =>
    simp only [List.length_cons] at h
    omega
  next => rfl

/-- The low nibble of a byte up to nine is the byte, and its high nibble is zero. -/
theorem fields_of_toNat_le_nine {b : Byte} (h : b.toNat ≤ 9) : opcField b = 0 ∧ (lowNibble b).toNat = b.toNat := by
  revert b
  decide

/-- Settles O48: each clause by the decoder's case that rejects it. -/
theorem reservedEncodingsAreRefused : Obligations.ReservedEncodingsAreRefused := by
  refine ⟨fun b bs s hs hb => ?_, fun b bs s hs hb hsub => ?_, fun b bs s hs hb hsub => ?_, fun b bs s hs hb => ?_,
    fun bs s hs hlen => ?_, fun s hs => ?_, fun b bs s hs hb hlen => ?_⟩
  · exact step_rejected hs (decode_cons_unassigned (opcodeOf_unassigned _ hb) bs)
  · obtain ⟨o, hopc, hformat⟩ := opcodeOf_not_formatE hb
    have hillegal : subLegal o.format (lowNibble b) = false := by
      rw [subLegal_of_ne_e hformat]
      exact beq_false_of_ne hsub
    exact step_rejected hs (decode_cons_mustBeZero hopc hillegal bs)
  · obtain ⟨o, hopc, hformat⟩ := opcodeOf_formatE hb
    have hillegal : subLegal o.format (lowNibble b) = false := by
      rw [hformat, subLegal, lowNibble_extractLsb']
      exact beq_false_of_ne hsub
    exact step_rejected hs (decode_cons_mustBeZero hopc hillegal bs)
  · refine step_rejected hs ((decode_store _).trans (decodeStore_cons_reserved ?_ bs))
    rintro ⟨hopc, hle⟩
    exact hb.elim (fun hne => hne hopc) (fun hlt => absurd hle (Nat.not_le_of_lt hlt))
  · exact step_rejected hs ((decode_write bs).trans (decodeWrite_truncated hlen))
  · exact step_rejected hs (decode_store [])
  · obtain ⟨hopc, hnibble⟩ := fields_of_toNat_le_nine hb
    exact step_rejected hs ((decode_store _).trans
      (decodeStore_of_takeWords_none ⟨hopc, hnibble.symm ▸ hb⟩ (takeWords_none (hnibble.symm ▸ hlen))))

/-! ### Responses -/

/-- The responses an event puts on the port (R67). -/
def responsesOf (i : Instr) (s : State) : List Response :=
  match i with
  | .read => [.position s.pos]
  | .recallFreqs => [.frequencies (recallValues s.params (mediumPrefix s.params s.medium))]
  | .activate | .edgeA _ | .edgeB _ | .write _ | .initMedium | .store _ | .reset => []

/-- What an event that completes leaves on the response port (R67). -/
theorem exec_responses {i : Instr} {s t : State} (h : exec i s = .next t) :
    t.responses = s.responses ++ responsesOf i s := by
  obtain ⟨rfl, -, rfl⟩ | ⟨l, rfl, rfl⟩ | ⟨l, rfl, rfl⟩ | ⟨rfl, rfl⟩ | ⟨n, rfl, rfl⟩ | ⟨rfl, rfl⟩ | ⟨vs, rfl, -, rfl⟩ |
    ⟨rfl, -, rfl⟩ | ⟨rfl, rfl⟩ := exec_cases h
  · exact (List.append_nil _).symm
  · rw [deliverEdge_responses]; exact (List.append_nil _).symm
  · rw [deliverEdge_responses]; exact (List.append_nil _).symm
  · rfl
  · exact (List.append_nil _).symm
  · exact (List.append_nil _).symm
  · rw [storeList_responses]; exact (List.append_nil _).symm
  · rw [recallList_eq]; rfl
  · exact (List.append_nil _).symm

theorem responsesOf_eq_nil {i : Instr} (hread : i ≠ .read) (hrecall : i ≠ .recallFreqs) (s : State) :
    responsesOf i s = [] := by
  cases i with
  | read => exact absurd rfl hread
  | recallFreqs => exact absurd rfl hrecall
  | activate | edgeA | edgeB | write | initMedium | store | reset => rfl

/-- `RECALL` returns one to nine values, whatever the parameters (R111). -/
theorem recallValues_length (c : Params) {found : List Freq} (h : found.length ≤ 9) :
    1 ≤ (recallValues c found).length ∧ (recallValues c found).length ≤ 9 := by
  match found with
  | [] => exact ⟨by simp [recallValues], by simp [recallValues]⟩
  | v :: rest => exact ⟨by simp [recallValues], h⟩

/-- The bytes of a `RECALL` response: the count, then the values (R67). -/
theorem bytes_frequencies {out : List Freq} (h : out.length ≤ 9) :
    (Response.bytes (.frequencies out)).length = 1 + 4 * out.length ∧
    (Response.bytes (.frequencies out)).head?.map BitVec.toNat = some out.length ∧
    ∀ rest, takeWords out.length ((Response.bytes (.frequencies out)).tail ++ rest) = some (out, rest) := by
  refine ⟨?_, ?_, takeWords_leBytes out⟩
  · rw [Response.bytes, List.length_cons, length_flatMap_leBytes, Nat.add_comm]
  · exact congrArg some ((BitVec.toNat_ofNat out.length 8).trans (Nat.mod_eq_of_lt (by omega)))

/-- Settles O40: what each event leaves on the port, and the bytes of the two responses. -/
theorem responsesComeFromReadAndRecallOnly : Obligations.ResponsesComeFromReadAndRecallOnly := by
  refine ⟨fun i s t h => ⟨responsesOf i s, exec_responses h, ?_, ?_, fun hread hrecall =>
    responsesOf_eq_nil hread hrecall s⟩, fun p => rfl, fun out => bytes_frequencies⟩
  · rintro rfl
    rfl
  · rintro rfl
    exact ⟨_, rfl, recallValues_length s.params (mediumPrefix_length_le s.params s.medium)⟩

/-- Settles O44: RESET clears `armed`, so `ACTIVATE` is legal and `INIT_MEDIUM` makes `RECALL` legal. -/
theorem bootRunsFromEveryState : Obligations.BootRunsFromEveryState := by
  intro s hlegal
  have hrun : runEvents boot s = .next (recallList (resetBlock s).arm.ready) := rfl
  rw [recallList_eq] at hrun
  exact ⟨_, _, hrun, rfl, rfl, rfl, rfl, rfl, rfl, responseLegal_recallValues hlegal s.medium⟩

/-! ### The byte stream as its event tuples -/

/-- An event leaves the rest of the stream alone and does not look at it (R10). -/
theorem exec_withInput (i : Instr) (s : State) (bs : List Byte) :
    exec i (s.withInput bs) = mapNext (·.withInput bs) (exec i s) :=
  exec_congr i (·.withInput bs) s ⟨id, id, fun _ => bs, fun _ => rfl⟩

/-- A run whose first event finds another rest of the stream goes on from the same state with that rest. -/
theorem andThen_exec_withInput (i : Instr) (s : State) (bs : List Byte)
    (f : State → Host.Outcome State Fault Refusal) :
    andThen (exec i (s.withInput bs)) f = andThen (exec i s) fun t => f (t.withInput bs) := by
  rw [exec_withInput]
  match exec i s with
  | .next t => rfl
  | .fault r => rfl
  | .refused r => rfl

/-- A step on the bytes of an event runs the event on the bytes after it (R59, R60). -/
theorem step_encode {i : Instr} (hi : i.wf = true) (bs : List Byte) (s : State) :
    step (s.withInput (encode i ++ bs)) = exec i (s.withInput bs) :=
  step_of_decode (decodeOfEncodeIsTheEvent i bs hi)

theorem runSteps_encodeTrace {es : List Instr} (hes : ∀ i ∈ es, i.wf = true) (rest : List Byte) (s : State) :
    runSteps es.length (s.withInput (encodeTrace es ++ rest)) = runEvents es (s.withInput rest) := by
  induction es generalizing s with
  | nil => rfl
  | cons i es ih =>
    obtain ⟨hi, htail⟩ := List.forall_mem_cons.mp hes
    calc runSteps (es.length + 1) (s.withInput (encodeTrace (i :: es) ++ rest))
        = andThen (step (s.withInput (encode i ++ (encodeTrace es ++ rest)))) (runSteps es.length) := by
          rw [runSteps, encodeTrace, List.flatMap_cons, List.append_assoc]
          rfl
      _ = andThen (exec i s) fun t => runSteps es.length (t.withInput (encodeTrace es ++ rest)) := by
          rw [step_encode hi, andThen_exec_withInput]
      _ = andThen (exec i s) fun t => runEvents es (t.withInput rest) := by simp only [ih htail]
      _ = runEvents (i :: es) (s.withInput rest) := (andThen_exec_withInput i s rest (runEvents es)).symm

/-- Settles O52, by induction on the trace: each step takes the bytes of one event, and no event looks at the rest. -/
theorem theByteStreamRunsAsItsEventTuples : Obligations.TheByteStreamRunsAsItsEventTuples :=
  fun _ rest s hes => runSteps_encodeTrace hes rest s

/-! ### The text of a trace -/

theorem readLines_cons {l : List Char} {ls : List (List Char)} {es more : List Instr} (hl : readLine l = some es)
    (hls : readLines ls = some more) : readLines (l :: ls) = some (es ++ more) := by
  simp only [readLines, hl, hls]

/-- The first line of a printed trace is its first event (R72). -/
theorem splitOnChar_traceText_cons (i : Instr) (es : List Instr) :
    splitOnChar '
' (traceText (i :: es)) = eventText i :: splitOnChar '
' (traceText es) := by
  rw [traceText, List.flatMap_cons, List.append_assoc]
  exact split_append _ _ _ (text_nl i)

/-- Settles O53, by induction on the trace: its first line reads back as its first event. -/
theorem traceTextReadsBack : Obligations.TraceTextReadsBack := by
  intro es hes
  induction es with
  | nil => rfl
  | cons i es ih =>
    obtain ⟨hi, htail⟩ := List.forall_mem_cons.mp hes
    rw [readTrace, splitOnChar_traceText_cons]
    exact readLines_cons (readLine_text i hi) (ih htail)

end Sys2Proof.Machine
end

section
/-!
QDEC (40_qdec.md): arming (R78), one edge and one classifier run (R80 to R90), the mirror of the two directions (R88),
runs of edges (R94, R97 to R99), `READ` and `WRITE` (R95, R96).
-/

namespace Sys2Proof.Machine

/-! ### One event -/

/-- Settles O2: each half by the value of `armed`; RESET clears it. -/
theorem activateArmsOnceBetweenResets : Obligations.ActivateArmsOnceBetweenResets := by
  intro s
  refine ⟨fun harmed => ?_, fun harmed => ?_, (resetBlock s).arm, rfl, rfl⟩
  · simp [exec, execActivate, harmed, State.arm]
  · simp [exec, execActivate, harmed]

/-- Settles O3: what delivery on line A comes to, armed and unarmed. -/
theorem edgeASamplesLineAAndClassifiesOnce : Obligations.EdgeASamplesLineAAndClassifiesOnce := fun l _ =>
  ⟨fun harmed => congrArg Host.Outcome.next (deliverEdge_a_armed harmed l),
    fun harmed => congrArg Host.Outcome.next (deliverEdge_unarmed harmed .a l)⟩

/-- Settles O4: what delivery on line B comes to, armed and unarmed. -/
theorem edgeBSamplesLineBAndClassifiesOnce : Obligations.EdgeBSamplesLineBAndClassifiesOnce := fun l _ =>
  ⟨fun harmed => congrArg Host.Outcome.next (deliverEdge_b_armed harmed l),
    fun harmed => congrArg Host.Outcome.next (deliverEdge_unarmed harmed .b l)⟩

/-- Settles O16: the meaning of `READ` has no branch. -/
theorem readRespondsWithThePosition : Obligations.ReadRespondsWithThePosition := fun _ => rfl

/-- Settles O17: the meaning of `WRITE` has no branch. -/
theorem writeReplacesThePositionOnly : Obligations.WriteReplacesThePositionOnly := fun _ _ => rfl

/-! ### The classifier's tables -/

/-- Settles O5: three pairs by the table alone, the fourth by IDLE_TIE. -/
theorem idleStateTransitions : Obligations.IdleStateTransitions := by
  intro c p
  refine ⟨rfl, rfl, rfl, fun htie => ?_, fun htie => ?_⟩
  · simp [classify, classifyIdle, htie]
  · simp [classify, classifyIdle, htie]

/-- Settles O6: the detent by the modular increment, the glitch pair of `CW_1` by GLITCH_GUARD, the rest by the
tables. -/
theorem clockwiseArcTransitions : Obligations.ClockwiseArcTransitions := by
  intro c p
  refine ⟨?detent, rfl, rfl, fun hguard => ?bothHigh, fun hguard => ?leadHigh, fun _ => rfl, fun _ => rfl, fun _ => rfl,
    fun _ => rfl⟩
  case detent => exact congrArg (Prod.mk DState.cw2) (posInc_eq p)
  case bothHigh => simp [classify, classifyCw1, hguard]
  case leadHigh => simp [classify, classifyCw1, hguard]

/-- Settles O7: the detent by the modular decrement, the glitch pair of `CCW_1` by GLITCH_GUARD, the rest by the
tables. -/
theorem counterClockwiseArcTransitions : Obligations.CounterClockwiseArcTransitions := by
  intro c p
  refine ⟨?detent, rfl, rfl, fun hguard => ?bothHigh, fun hguard => ?leadHigh, fun _ => rfl, fun _ => rfl, fun _ => rfl,
    fun _ => rfl⟩
  case detent => exact congrArg (Prod.mk DState.ccw2) (posDec_eq p)
  case bothHigh => simp [classify, classifyCcw1, hguard]
  case leadHigh => simp [classify, classifyCcw1, hguard]

/-! ### The mirror of the two directions -/

/-- The line that is not this one. -/
def Line.other : Line → Line
  | .a => .b
  | .b => .a

/-- An event seen with the two lines exchanged. -/
def mirrorEvent : Instr → Instr
  | .edgeA l => .edgeB l
  | .edgeB l => .edgeA l
  | i => i

theorem mirrorState_mirrorState (d : DState) : mirrorState (mirrorState d) = d := by cases d <;> rfl

theorem otherTie_otherTie (t : IdleTie) : otherTie (otherTie t) = t := by cases t <;> rfl

@[simp] theorem mirror_mirror (s : State) : mirror (mirror s) = s := by
  simp [mirror, mirrorState_mirrorState, otherTie_otherTie]

theorem mirror_withLevel (line : Line) (l : Level) (s : State) :
    mirror (s.withLevel line l) = (mirror s).withLevel line.other l := by cases line <;> rfl

theorem classifyOnce_mirror (s : State) : classifyOnce (mirror s) = mirror (classifyOnce s) :=
  congrArg (mirror s).withClassified (classify_mirror s.params s.dstate s.lvlA s.lvlB s.pos)

/-- The other line's handler does in the mirror what this line's handler does (R88). -/
theorem deliverEdge_mirror (line : Line) (l : Level) (s : State) :
    deliverEdge line.other l (mirror s) = mirror (deliverEdge line l s) := by
  rw [deliverEdge, handlerEntry, ← mirror_withLevel, classifyOnce_mirror]
  exact (apply_ite mirror (s.armed = true) (handlerEntry line l s) s).symm

theorem exec_mirror {i : Instr} (hi : isEdge i = true) (s : State) :
    exec (mirrorEvent i) (mirror s) = mapNext mirror (exec i s) := by
  cases i with
  | edgeA l => exact congrArg Host.Outcome.next (deliverEdge_mirror .a l s)
  | edgeB l => exact congrArg Host.Outcome.next (deliverEdge_mirror .b l s)
  | activate | read | write n | initMedium | store vs | recallFreqs | reset => exact nomatch hi

/-- Settles O9: an edge commutes with the mirror of its own line. -/
theorem theTwoDirectionsAreMirrorImages : Obligations.TheTwoDirectionsAreMirrorImages := fun l s =>
  ⟨exec_mirror (i := .edgeA l) rfl s, exec_mirror (i := .edgeB l) rfl s⟩

/-- A run of edges that completes from the mirrored state completes with the lines exchanged, in the mirrored state. -/
theorem runEvents_mirror {es : List Instr} (hes : es.all isEdge = true) {s t : State}
    (h : runEvents es (mirror s) = .next t) : runEvents (es.map mirrorEvent) s = .next (mirror t) := by
  induction es generalizing s with
  | nil =>
    cases h
    simp [runEvents]
  | cons i es ih =>
    obtain ⟨hi, htail⟩ := Bool.and_eq_true_iff.mp hes
    obtain ⟨m, hm, hrest⟩ := runEvents_cons_next h
    have hstep : exec (mirrorEvent i) s = .next (mirror m) := by
      have := exec_mirror hi (mirror s)
      rwa [mirror_mirror, hm] at this
    rw [List.map_cons, runEvents_cons_of_exec hstep]
    exact ih htail (by rwa [mirror_mirror])

/-! ### Runs of edges -/

/-- Settles O13, by induction on the run: each edge completes and stays within the four elements. -/
theorem everyEdgeSequenceIsAbsorbed : Obligations.EveryEdgeSequenceIsAbsorbed := by
  intro es s hes
  induction es generalizing s with
  | nil => exact ⟨s.lvlA, s.lvlB, s.dstate, s.pos, rfl⟩
  | cons i es ih =>
    obtain ⟨hi, htail⟩ := Bool.and_eq_true_iff.mp hes
    obtain ⟨line, l, hexec⟩ := exec_edge hi
    obtain ⟨a, b, d, p, hframe⟩ := deliverEdge_frame line l s
    rw [runEvents_cons_of_exec (hexec s), hframe]
    exact ih _ htail

/-- A run goes on from an armed edge on line A with what the classifier returns on the new pair (R80). -/
theorem runEvents_edgeA {s : State} {l : Level} {d : DState} {p : Position} {es : List Instr}
    (harmed : s.armed = true) (hclass : classify s.params s.dstate l s.lvlB s.pos = (d, p)) :
    runEvents (.edgeA l :: es) s = runEvents es { s with lvlA := l, dstate := d, pos := p } := by
  rw [runEvents_cons_of_exec ((edgeASamplesLineAAndClassifiesOnce l s).1 harmed), hclass]

/-- A run goes on from an armed edge on line B with what the classifier returns on the new pair (R81). -/
theorem runEvents_edgeB {s : State} {l : Level} {d : DState} {p : Position} {es : List Instr}
    (harmed : s.armed = true) (hclass : classify s.params s.dstate s.lvlA l s.pos = (d, p)) :
    runEvents (.edgeB l :: es) s = runEvents es { s with lvlB := l, dstate := d, pos := p } := by
  rw [runEvents_cons_of_exec ((edgeBSamplesLineBAndClassifiesOnce l s).1 harmed), hclass]

/-- A clockwise cycle from rest passes `CW_1`, `CW_2` and `CW_3` and counts once (R97). -/
theorem runEvents_cwCycle {s : State} (harmed : s.armed = true) (hA : s.lvlA = .high) (hB : s.lvlB = .high)
    (hidle : s.dstate = .idle) : runEvents cwCycle s = .next { s with pos := s.pos + 1 } := by
  obtain ⟨-, hlead, -⟩ := idleStateTransitions s.params s.pos
  obtain ⟨hdetent, -⟩ := clockwiseArcTransitions s.params s.pos
  calc runEvents cwCycle s
      = runEvents [.edgeA .low, .edgeB .high, .edgeA .high] { s with lvlB := .low, dstate := .cw1 } :=
        runEvents_edgeB harmed (by rw [hidle, hA, hlead])
    _ = runEvents [.edgeB .high, .edgeA .high]
          { s with lvlA := .low, lvlB := .low, dstate := .cw2, pos := s.pos + 1 } := runEvents_edgeA harmed hdetent
    _ = runEvents [.edgeA .high] { s with lvlA := .low, lvlB := .high, dstate := .cw3, pos := s.pos + 1 } :=
        runEvents_edgeB harmed rfl
    _ = .next { s with lvlA := .high, lvlB := .high, dstate := .idle, pos := s.pos + 1 } :=
        runEvents_edgeA harmed rfl
    _ = .next { s with pos := s.pos + 1 } := by rw [hA, hB, hidle]

/-- Settles O10: the clockwise cycle through its four states, the counter-clockwise one as its mirror image. -/
theorem fullCyclesCountExactlyOne : Obligations.FullCyclesCountExactlyOne := by
  intro s harmed hA hB hidle
  refine ⟨runEvents_cwCycle harmed hA hB hidle, ?_⟩
  have hcw : runEvents cwCycle (mirror s) = .next { mirror s with pos := -s.pos + 1 } :=
    runEvents_cwCycle harmed hB hA (congrArg mirrorState hidle)
  have hpos : -(-s.pos + 1) = s.pos - 1 := by bv_omega
  calc runEvents ccwCycle s
      = .next (mirror { mirror s with pos := -s.pos + 1 }) := runEvents_mirror (es := cwCycle) rfl hcw
    _ = .next { mirror (mirror s) with pos := -(-s.pos + 1) } := rfl
    _ = .next { s with pos := s.pos - 1 } := by rw [mirror_mirror, hpos]

/-- While line A is cached high, an edge on line B turns between `IDLE` and `CW_1` and counts nothing (R84, R85). -/
theorem classify_lineA_high {d : DState} (hd : d = .idle ∨ d = .cw1) (c : Params) (l : Level) (p : Position) :
    classify c d .high l p = (if l = .high then .idle else .cw1, p) := by
  obtain rfl | rfl := hd
  · cases l <;> rfl
  · cases l <;> rfl

/-- Bounce on line B with line A cached high is not counted, and the state follows the level of line B (R99). -/
theorem runEvents_bounceB (ls : List Level) {s : State} (harmed : s.armed = true) (hA : s.lvlA = .high)
    (hd : s.dstate = if s.lvlB = .high then .idle else .cw1) :
    ∃ t, runEvents (ls.map Instr.edgeB) s = .next t ∧ t.pos = s.pos ∧
      t.dstate = if t.lvlB = .high then .idle else .cw1 := by
  induction ls generalizing s with
  | nil => exact ⟨s, rfl, rfl, hd⟩
  | cons l ls ih =>
    have hstate : s.dstate = .idle ∨ s.dstate = .cw1 := by
      rw [hd]
      exact ite_eq_or_eq _ _ _
    have hclass := classify_lineA_high hstate s.params l s.pos
    rw [List.map_cons, runEvents_edgeB harmed (by rw [hA, hclass])]
    exact ih harmed hA rfl

/-- Settles O11: the bounce on line B by induction, the one on line A as its mirror image. -/
theorem bounceOnOneLineIsNeverCounted : Obligations.BounceOnOneLineIsNeverCounted := by
  intro ls s harmed hidle hA hB
  refine ⟨runEvents_bounceB ls harmed hA (by rw [hidle, hB]; rfl), ?_⟩
  have hd : (mirror s).dstate = if (mirror s).lvlB = .high then .idle else .cw1 := by simp [mirror, hidle, hA, mirrorState]
  obtain ⟨t, hrun, hpos, hdstate⟩ := runEvents_bounceB ls (s := mirror s) harmed hB hd
  have hedges : (ls.map Instr.edgeB).all isEdge = true := by simp [isEdge]
  have hmirror := runEvents_mirror hedges hrun
  rw [List.map_map] at hmirror
  refine ⟨mirror t, hmirror, ?_, ?_⟩
  · simp [mirror, hpos]
  · calc (mirror t).dstate = mirrorState (if t.lvlB = .high then .idle else .cw1) := congrArg mirrorState hdstate
      _ = if t.lvlB = .high then .idle else .ccw1 := apply_ite mirrorState _ _ _

/-! ### `READ` after `WRITE` -/

/-- Any number of `READ`s respond with the same position and change nothing else (R95). -/
theorem runEvents_reads (k : Nat) (s : State) :
    runEvents (List.replicate k .read) s =
      .next { s with responses := s.responses ++ List.replicate k (.position s.pos) } := by
  induction k generalizing s with
  | zero => simp [runEvents]
  | succ k ih =>
    rw [List.replicate_succ, runEvents_cons_of_exec (readRespondsWithThePosition s), ih, List.append_assoc]
    rfl

/-- Settles O18: `WRITE` sets the position that every `READ` after it responds with. -/
theorem readsAfterWriteReturnTheValue : Obligations.ReadsAfterWriteReturnTheValue := fun n k s =>
  (runEvents_cons_of_exec (writeReplacesThePositionOnly n s) _).trans (runEvents_reads k { s with pos := n })

end Sys2Proof.Machine
end

section
/-!
FSTORE (41_fstore.md): the validity of a frequency (R100), the gate of the medium (R103 to R105), one `STORE` and one
`RECALL` (R102, R106 to R112), the two in a run (R114, R115), an edge beside them (R116).
-/

namespace Sys2Proof.Machine

/-! ### Validity and the gate -/

/-- Where both limits are included, `Valid` is the closed band between them (R100). -/
theorem valid_iff_of_inclusive {c : Params} (hmin : c.minInclusive = true) (hmax : c.maxInclusive = true) (v : Freq) :
    valid c v = true ↔ c.minTuneFreq.toNat ≤ v.toNat ∧ v.toNat ≤ c.maxTuneFreq.toNat := by
  simp [valid, aboveMinimum, belowMaximum, hmin, hmax]

/-- Settles O23: the spec takes both limits as included, and these are their values. -/
theorem validIsTheClosedBand : Obligations.ValidIsTheClosedBand := valid_iff_of_inclusive rfl rfl

/-- On a ready medium `INIT_MEDIUM` has nothing left to set (D20). -/
theorem ready_eq_self {s : State} (h : s.medReady = true) : s.ready = s := by
  rw [State.ready, ← h]

/-- Settles O24: the meaning of `INIT_MEDIUM` has no branch, and it sets one element. -/
theorem initMediumSetsReadyAndErasesNothing : Obligations.InitMediumSetsReadyAndErasesNothing := fun _ =>
  ⟨rfl, fun hready => congrArg Host.Outcome.next (ready_eq_self hready)⟩

/-- `STORE` before `INIT_MEDIUM` is refused (R103). -/
theorem exec_store_not_ready {s : State} (h : s.medReady = false) (vs : List Freq) :
    exec (.store vs) s = .refused .mediumNotReady := by
  simp [exec, execStore, whenReady, h]

/-- `RECALL` before `INIT_MEDIUM` is refused (R103). -/
theorem exec_recall_not_ready {s : State} (h : s.medReady = false) :
    exec .recallFreqs s = .refused .mediumNotReady := by
  simp [exec, execRecall, whenReady, h]

/-- Settles O25: both events by the two values of `med_ready`. -/
theorem mediumEventsAreRefusedBeforeInit : Obligations.MediumEventsAreRefusedBeforeInit := fun vs _ =>
  ⟨fun hready => ⟨exec_store_not_ready hready vs, exec_recall_not_ready hready⟩,
    fun hready => ⟨⟨_, exec_store hready vs⟩, ⟨_, exec_recall hready⟩⟩⟩

/-! ### One `STORE` -/

/-- The region starts where the medium does (R41). -/
theorem slotOffset_one : slotOffset 1 = 0 := rfl

/-- `STORE` leaves the valid run of its operand in slots 1..k and the sentinel in slot k+1 where k < 9 (R106). -/
theorem storeList_slots {s : State} (hm : Memory.wf s.medium = true) (vs : List Freq) :
    (∀ j, ∀ h : j < (validPrefix s.params vs).length,
      Memory.slot (storeList vs s).medium (j + 1) = (validPrefix s.params vs)[j]) ∧
    ((validPrefix s.params vs).length < 9 →
      Memory.slot (storeList vs s).medium ((validPrefix s.params vs).length + 1) = Config.sentinel) := by
  obtain ⟨hslots, hsentinel⟩ := storeLoop_slots 9 1 vs s le_rfl hm
  refine ⟨fun j hj => ?_, fun hk => ?_⟩
  · rw [Nat.add_comm]
    exact hslots j hj
  · rw [Nat.add_comm]
    exact hsentinel hk

/-- `STORE` leaves the bytes past the last slot it writes (R107). -/
theorem storeList_read_untouched (vs : List Freq) (s : State) {a : Nat}
    (ha : 4 * min ((validPrefix s.params vs).length + 1) 9 ≤ a) :
    Memory.read (storeList vs s).medium a = Memory.read s.medium a := by
  refine storeLoop_read_outside 9 1 vs s le_rfl (.inr ?_)
  rwa [slotOffset_one, Nat.zero_add]

/-- `STORE` issues its puts in ascending slot order, the sentinel's after them, and one commit last (R106, R108). -/
theorem storeList_mediumPort (vs : List Freq) (s : State) :
    (storeList vs s).mediumPort = s.mediumPort ++ putsFrom 1 (validPrefix s.params vs) ++
      (if (validPrefix s.params vs).length < 9 then
        [.put (4 * (validPrefix s.params vs).length) Config.sentinel] else []) ++ [.commit] := by
  rw [storeList_eq, storeLoop_port, sentinelPut, slotOffset_add 1 _ le_rfl, slotOffset_one, Nat.zero_add]
  rfl

/-- Settles O26: what `STORE` past its gate leaves in the slots, in the other bytes, on the port and elsewhere. -/
theorem storeWritesTheValidPrefixThenTheSentinel : Obligations.StoreWritesTheValidPrefixThenTheSentinel := by
  intro vs s _ hm
  refine ⟨fun hready => exec_store_not_ready hready vs, fun hready => ⟨storeList vs s, exec_store hready vs, ?_⟩⟩
  obtain ⟨hslots, hsentinel⟩ := storeList_slots hm vs
  have hframe : storeList vs s = { s with
      medium := (storeList vs s).medium
      durable := (storeList vs s).durable
      mediumPort := (storeList vs s).mediumPort } := by rw [storeList_eq]
  exact ⟨hslots, hsentinel, fun a => storeList_read_untouched vs s, rfl, storeList_mediumPort vs s, hframe⟩

/-! ### One `RECALL` -/

/-- Settles O27: `RECALL` past its gate, its values told by slot 1; the defaults' values are the spec's. -/
theorem recallRespondsWithTheValidPrefixOrTheDefaults : Obligations.RecallRespondsWithTheValidPrefixOrTheDefaults := by
  refine ⟨fun s => ⟨exec_recall_not_ready, fun hready => ?_⟩, rfl, rfl, rfl, rfl⟩
  rw [exec_recall hready, recallList_eq, recallValues_eq]

/-- `RECALL`'s values on any medium are one to nine valid ones (R112). -/
theorem recallValues_mediumPrefix_legal {c : Params} (hc : paramsLegal c = true) (m : Memory) :
    1 ≤ (recallValues c (mediumPrefix c m)).length ∧ (recallValues c (mediumPrefix c m)).length ≤ 9 ∧
      ∀ v ∈ recallValues c (mediumPrefix c m), valid c v = true :=
  recallValues_legal c hc _ (mediumPrefix_length_le c m) fun _ => valid_of_mem_takeWhile

theorem recallList_responses (s : State) :
    (recallList s).responses =
      s.responses ++ [.frequencies (recallValues s.params (mediumPrefix s.params s.medium))] := by
  rw [recallList_eq]

/-- Settles O28: the valid run of nine slots holds valid values only, and the two defaults are valid. -/
theorem recallReturnsOneToNineValidValues : Obligations.RecallReturnsOneToNineValidValues := fun s hready hlegal =>
  ⟨_, _, exec_recall hready, recallList_responses s, recallValues_mediumPrefix_legal hlegal s.medium⟩

/-! ### What does not count -/

/-- `STORE` past its gate looks at no value after the first invalid one (R102). -/
theorem storeList_validPrefix (vs : List Freq) (s : State) : storeList (validPrefix s.params vs) s = storeList vs s :=
  congrArg State.medCommit (storeLoop_validPrefix 9 1 vs s)

/-- The valid run of the medium is decided by the slots up to the first invalid one (R102). -/
theorem mediumPrefix_congr {c : Params} {m m' : Memory}
    (h : ∀ a, a < 4 * min ((mediumPrefix c m).length + 1) 9 → Memory.read m' a = Memory.read m a) :
    mediumPrefix c m' = mediumPrefix c m := by
  refine takeWhile_slotsFrom_congr c m m' 9 1 le_rfl fun a _ ha => h a ?_
  rwa [slotOffset_one, Nat.zero_add] at ha

/-- `RECALL` past its gate looks at no slot after the first invalid one (R102). -/
theorem recallList_withMedium {s : State} {m : Memory}
    (h : ∀ a, a < 4 * min ((mediumPrefix s.params s.medium).length + 1) 9 →
      Memory.read m a = Memory.read s.medium a) :
    recallList { s with medium := m } = { recallList s with medium := m } := by
  rw [recallList_eq, recallList_eq, mediumPrefix_congr h]

/-- Settles O31: `STORE` by the valid run of its operand, `RECALL` by the slots it scans. -/
theorem nothingAfterTheFirstInvalidEntryCounts : Obligations.NothingAfterTheFirstInvalidEntryCounts := by
  refine ⟨fun vs s => ?_, fun s u hready hu hread => ⟨recallList s, exec_recall hready, ?_⟩⟩
  · exact congrArg (whenReady s) (storeList_validPrefix vs s).symm
  · have huready : u.medReady = true := by rw [hu]; exact hready
    rw [exec_recall huready, hu]
    exact congrArg Host.Outcome.next (recallList_withMedium hread)

/-! ### `STORE` and `RECALL` in a run -/

/-- `RECALL` after a `STORE` and a run without another `STORE` responds the valid values stored, or the two defaults where
there are none (R114). -/
theorem runEvents_store_recall_responses {vs : List Freq} {es : List Instr} {s t : State}
    (hm : Memory.wf s.medium = true) (hp : paramsLegal s.params = true) (hes : ∀ i ∈ es, ∀ ws, i ≠ .store ws)
    (h : runEvents (.store vs :: es ++ [.recallFreqs]) s = .next t) :
    ∃ before, t.responses = before ++ [.frequencies (if validPrefix s.params vs = [] then
      [s.params.default1, s.params.default2] else validPrefix s.params vs)] := by
  obtain ⟨stored, hstore, hrest⟩ := runEvents_cons_next h
  obtain ⟨-, rfl⟩ := exec_store_next hstore
  obtain ⟨m, hmiddle, hlast⟩ := runEvents_append_eq_next_iff.mp hrest
  obtain ⟨hmedium, hparams⟩ := runEvents_medium hmiddle hes
  obtain ⟨recalled, hrecall, hend⟩ := runEvents_cons_next hlast
  cases hend
  obtain ⟨-, rfl⟩ := exec_recall_next hrecall
  exact ⟨m.responses, recallList_responses_of_stored hm hp hmedium (hparams.trans (storeList_params vs s))⟩

/-- Settles O29: the contract makes the run complete, and the events between leave the stored medium. -/
theorem recallAfterStoreReturnsTheStoredPrefix : Obligations.RecallAfterStoreReturnsTheStoredPrefix := by
  intro vs es s hm hp hes hcontract
  obtain ⟨t, hrun⟩ := runEvents_completes_of_contractKept hcontract
  obtain ⟨before, hresponses⟩ := runEvents_store_recall_responses hm hp hes hrun
  exact ⟨t, before, hrun, hresponses⟩

/-- A list of at most nine valid values is valid to its end (R102). -/
theorem validPrefix_eq_self {c : Params} {vs : List Freq} (hlen : vs.length ≤ Config.nSlots)
    (h : ∀ v ∈ vs, valid c v = true) : validPrefix c vs = vs := by
  rw [validPrefix, List.take_of_length_le hlen]
  exact List.takeWhile_eq_self_iff.mpr h

@[simp] theorem recallList_params (s : State) : (recallList s).params = s.params := by
  rw [recallList_eq]

@[simp] theorem recallList_medium (s : State) : (recallList s).medium = s.medium := by
  rw [recallList_eq]

@[simp] theorem recallList_medReady (s : State) : (recallList s).medReady = s.medReady := by
  rw [recallList_eq]

@[simp] theorem storeList_medReady (vs : List Freq) (s : State) : (storeList vs s).medReady = s.medReady := by
  rw [storeList_eq]

/-- `RECALL` after a `STORE` of one to nine valid values responds those values (R114). -/
theorem recallList_storeList_responses {vs : List Freq} {s : State} (hm : Memory.wf s.medium = true)
    (hp : paramsLegal s.params = true) (hne : 1 ≤ vs.length) (hlen : vs.length ≤ 9)
    (hvs : ∀ v ∈ vs, valid s.params v = true) :
    (recallList (storeList vs s)).responses = s.responses ++ [.frequencies vs] := by
  have hcons : vs ≠ [] := List.ne_nil_of_length_pos hne
  rw [recallList_responses_of_stored hm hp rfl (storeList_params vs s), validPrefix_eq_self hlen hvs, if_neg hcons,
    storeList_responses]

/-- Settles O30: `RECALL` leaves the medium and returns one to nine valid values, which `STORE` keeps whole. -/
theorem recallStoreRecallRoundTrip : Obligations.RecallStoreRecallRoundTrip := by
  intro s hready hm hp
  obtain ⟨hne, hlen, hvalid⟩ := recallValues_mediumPrefix_legal hp s.medium
  set out := recallValues s.params (mediumPrefix s.params s.medium)
  have hrun : runEvents [.store out, .recallFreqs] (recallList s) =
      .next (recallList (storeList out (recallList s))) := by
    rw [runEvents_cons_of_exec (exec_store (by simpa using hready) out),
      runEvents_cons_of_exec (exec_recall (by simpa using hready))]
    rfl
  refine ⟨out, _, _, exec_recall hready, recallList_responses s, hrun, ?_⟩
  rw [recallList_storeList_responses (by simpa using hm) (by simpa using hp) hne hlen (by simpa using hvalid),
    recallList_responses, List.append_assoc]
  rfl

/-! ### An edge beside `STORE` and `RECALL` -/

/-- An edge neither reads nor writes the medium and the two ports (R80, R81). -/
theorem deliverEdge_withMediumAndPorts (line : Line) (l : Level) (s : State) (m d : Memory) (rs : List Response)
    (ops : List MediumOp) :
    deliverEdge line l { s with medium := m, durable := d, responses := rs, mediumPort := ops } =
      { deliverEdge line l s with medium := m, durable := d, responses := rs, mediumPort := ops } := by
  obtain ⟨_, _, _, _, hframe⟩ := deliverEdge_frame line l s
  rw [deliverEdge_congr line l (s := s)
    (s' := { s with medium := m, durable := d, responses := rs, mediumPort := ops }) rfl rfl rfl rfl rfl rfl, hframe]

/-- `STORE` past its gate commutes with an edge (R116). -/
theorem storeList_deliverEdge (vs : List Freq) (line : Line) (l : Level) (s : State) :
    storeList vs (deliverEdge line l s) = deliverEdge line l (storeList vs s) := by
  obtain ⟨_, _, _, _, hframe⟩ := deliverEdge_frame line l s
  rw [storeList_eq vs s]
  refine Eq.trans ?_ (deliverEdge_withMediumAndPorts line l s _ _ _ _).symm
  rw [hframe]
  exact storeList_congr vs (s := s) rfl rfl rfl

/-- `RECALL` past its gate commutes with an edge (R116). -/
theorem recallList_deliverEdge (line : Line) (l : Level) (s : State) :
    recallList (deliverEdge line l s) = deliverEdge line l (recallList s) := by
  obtain ⟨_, _, _, _, hframe⟩ := deliverEdge_frame line l s
  rw [recallList_eq s]
  refine Eq.trans ?_ (deliverEdge_withMediumAndPorts line l s _ _ _ _).symm
  rw [hframe]
  exact recallList_eq _

/-- An operation that commutes with an edge does so behind the gate of the medium events: no edge touches `med_ready`
(R103). -/
theorem whenReady_deliverEdge {f : State → State} {line : Line} {l : Level} {s : State}
    (hf : f (deliverEdge line l s) = deliverEdge line l (f s)) :
    whenReady (deliverEdge line l s) (f (deliverEdge line l s)) = mapNext (deliverEdge line l) (whenReady s (f s)) := by
  have hready : (deliverEdge line l s).medReady = s.medReady :=
    congrArg FstoreView.medReady (fstoreView_deliverEdge line l s)
  rw [hf, whenReady, whenReady, hready]
  cases s.medReady <;> rfl

/-- `STORE` and `RECALL` commute with an edge, refusals included (R116). -/
theorem exec_deliverEdge {i : Instr} (hi : i = .recallFreqs ∨ ∃ vs, i = .store vs) (line : Line) (l : Level)
    (s : State) : exec i (deliverEdge line l s) = mapNext (deliverEdge line l) (exec i s) := by
  obtain rfl | ⟨vs, rfl⟩ := hi
  · exact whenReady_deliverEdge (recallList_deliverEdge line l s)
  · exact whenReady_deliverEdge (storeList_deliverEdge vs line l s)

theorem runEvents_singleton (i : Instr) (s : State) : runEvents [i] s = exec i s := by
  rw [runEvents]
  cases exec i s <;> rfl

/-- Settles O38: the edge's delivery commutes with the other event's outcome. -/
theorem edgesCommuteWithStoreAndRecall : Obligations.EdgesCommuteWithStoreAndRecall := by
  intro e f s he hf
  obtain ⟨line, l, hedge⟩ := exec_edge he
  have hlast : runEvents [e] = fun t => .next (deliverEdge line l t) :=
    funext fun t => (runEvents_singleton e t).trans (hedge t)
  calc runEvents [e, f] s
      = exec f (deliverEdge line l s) := by rw [runEvents_cons_of_exec (hedge s), runEvents_singleton]
    _ = mapNext (deliverEdge line l) (exec f s) := exec_deliverEdge hf line l s
    _ = runEvents [f, e] s := by rw [runEvents, hlast, mapNext]

end Sys2Proof.Machine
end

section
/-!
Exceptions (60_exceptions.md): the caller's contract event by event (R120), the enabling of the two edge sources (R122),
the order of two edges that arrive together (R125).
-/

namespace Sys2Proof.Machine

/-! ### The caller's contract, event by event -/

/-- One event can break two contracts only: a second `ACTIVATE`, and a medium event before `INIT_MEDIUM` (R120). -/
theorem contractKept_singleton_false {i : Instr} {armed ready : Bool} (h : contractKept armed ready [i] = false) :
    (i = .activate ∧ armed = true) ∨ ((i = .recallFreqs ∨ ∃ vs, i = .store vs) ∧ ready = false) := by
  cases i with
  | activate => exact .inl ⟨rfl, by simpa [contractKept] using h⟩
  | store vs => exact .inr ⟨.inr ⟨vs, rfl⟩, by simpa [contractKept] using h⟩
  | recallFreqs => exact .inr ⟨.inl rfl, by simpa [contractKept] using h⟩
  | edgeA | edgeB | read | write | initMedium | reset => exact nomatch h

/-- Settles O41: a kept contract lets the event complete, and each of the two that can be broken has its refusal. -/
theorem eventsCompleteExactlyWhereTheContractHolds : Obligations.EventsCompleteExactlyWhereTheContractHolds := by
  intro i s
  refine ⟨exec_completes_of_contractKept, fun hbroken => ?_⟩
  obtain ⟨rfl, harmed⟩ | ⟨rfl | ⟨vs, rfl⟩, hready⟩ := contractKept_singleton_false hbroken
  · obtain ⟨-, hrefused, -⟩ := activateArmsOnceBetweenResets s
    exact .inl ⟨rfl, hrefused harmed⟩
  · exact .inr ⟨.inl rfl, exec_recall_not_ready hready⟩
  · exact .inr ⟨.inr ⟨vs, rfl⟩, exec_store_not_ready hready vs⟩

/-! ### The enabling of the edge sources -/

/-- An event without a write of `armed` in the access matrix leaves it (R33). -/
theorem exec_armed {i : Instr} {s t : State} (h : exec i s = .next t) (hi : mayWrite i .armed = false) :
    t.armed = s.armed :=
  (congrArg State.armed (takeElement_exec h hi)).symm

/-- `ACTIVATE` that completes sets `armed` (R78). -/
theorem exec_activate_armed {s t : State} (h : exec .activate s = .next t) : t.armed = true := by
  obtain ⟨-, rfl⟩ : s.armed = false ∧ t = s.arm := by simpa using exec_cases h
  rfl

/-- RESET clears `armed` (R137). -/
theorem exec_reset_armed {s t : State} (h : exec .reset s = .next t) : t.armed = false := by
  obtain rfl : t = resetBlock s := by simpa using exec_cases h
  rfl

/-- An armed edge enters its line's handler (R122, R127). -/
theorem deliverEdge_armed {s : State} (h : s.armed = true) (line : Line) (l : Level) :
    deliverEdge line l s = handlerEntry line l s := if_pos h

/-- Settles O20: `armed` is the one enabling of both sources, and `ACTIVATE` and RESET alone write it. -/
theorem edgeDeliveryIsEnabledByActivateUntilReset : Obligations.EdgeDeliveryIsEnabledByActivateUntilReset := by
  refine ⟨fun i s t h => ?enabling, fun l s harmed => ?off, fun l s harmed => ?on⟩
  case enabling =>
    cases i with
    | activate => exact exec_activate_armed h
    | reset => exact exec_reset_armed h
    | edgeA | edgeB | read | write | initMedium | store | recallFreqs => exact exec_armed h rfl
  case off =>
    exact ⟨congrArg Host.Outcome.next (deliverEdge_unarmed harmed .a l),
      congrArg Host.Outcome.next (deliverEdge_unarmed harmed .b l)⟩
  case on =>
    exact ⟨congrArg Host.Outcome.next (deliverEdge_armed harmed .a l),
      congrArg Host.Outcome.next (deliverEdge_armed harmed .b l)⟩

/-! ### The order of two edges -/

/-- An interleaving holds each event as often as the agent that may issue it does (R12). -/
theorem interleaves.count_eq {issued : Agent → List Instr} {es : List Instr} (h : interleaves issued es) (i : Instr) :
    es.count i = (issued (agentOf i)).count i := by
  rw [← h (agentOf i), List.count_filter]
  exact decide_eq_true rfl

/-- Two interleavings of the same sequences hold the same events (R12). -/
theorem interleaves.perm {issued : Agent → List Instr} {es fs : List Instr} (hes : interleaves issued es)
    (hfs : interleaves issued fs) : es.Perm fs :=
  List.perm_iff_count.mpr fun i => (hes.count_eq i).trans (hfs.count_eq i).symm

/-- From rest, line B falling before line A counts clockwise (R84, R85). -/
theorem runEvents_fallBThenA {s : State} (harmed : s.armed = true) (hA : s.lvlA = .high) (hidle : s.dstate = .idle) :
    runEvents [.edgeB .low, .edgeA .low] s =
      .next { s with lvlA := .low, lvlB := .low, dstate := .cw2, pos := s.pos + 1 } := by
  obtain ⟨-, hlead, -⟩ := idleStateTransitions s.params s.pos
  obtain ⟨hdetent, -⟩ := clockwiseArcTransitions s.params s.pos
  calc runEvents [.edgeB .low, .edgeA .low] s
      = runEvents [.edgeA .low] { s with lvlB := .low, dstate := .cw1 } :=
        runEvents_edgeB harmed (by rw [hidle, hA, hlead])
    _ = .next { s with lvlA := .low, lvlB := .low, dstate := .cw2, pos := s.pos + 1 } :=
        runEvents_edgeA harmed hdetent

/-- From rest, line A falling before line B counts counter-clockwise, as the mirror image (R84, R88). -/
theorem runEvents_fallAThenB {s : State} (harmed : s.armed = true) (hB : s.lvlB = .high) (hidle : s.dstate = .idle) :
    runEvents [.edgeA .low, .edgeB .low] s =
      .next { s with lvlA := .low, lvlB := .low, dstate := .ccw2, pos := s.pos - 1 } := by
  have hcw := runEvents_fallBThenA (s := mirror s) harmed hB (congrArg mirrorState hidle)
  have hpos : -(-s.pos + 1) = s.pos - 1 := by bv_omega
  calc runEvents [.edgeA .low, .edgeB .low] s
      = .next { mirror (mirror s) with lvlA := .low, lvlB := .low, dstate := .ccw2, pos := -(-s.pos + 1) } :=
        runEvents_mirror (es := [.edgeB .low, .edgeA .low]) rfl hcw
    _ = .next { s with lvlA := .low, lvlB := .low, dstate := .ccw2, pos := s.pos - 1 } := by rw [mirror_mirror, hpos]

/-- Settles O22: the interleavings are the two orders of two events, and each order runs to its own detent. -/
theorem crossLineOrderDecidesTheDirection : Obligations.CrossLineOrderDecidesTheDirection := by
  intro s es harmed hA hB hidle hes
  have hperm : es.Perm [.edgeA .low, .edgeB .low] := hes.perm fun a => by cases a <;> rfl
  obtain rfl | rfl := List.perm_pair.mp hperm
  · exact ⟨_, runEvents_fallAThenB harmed hB hidle, .inl ⟨rfl, rfl, rfl⟩⟩
  · exact ⟨_, runEvents_fallBThenA harmed hA hidle, .inr ⟨rfl, rfl, rfl⟩⟩

end Sys2Proof.Machine
end

section
/-!
Reset and hazards (70_reset_and_hazards.md): the reset state (R137), the boot orders over whole runs (R140, R141), the
half turn and back (R149), the ends of the position's range (R152).
-/

namespace Sys2Proof.Machine

/-! ### The boot orders -/

/-- The callers of a run that completes kept the contract at every event (R120). -/
theorem contractKept_of_runEvents {es : List Instr} {s t : State} (h : runEvents es s = .next t) :
    contractKept s.armed s.medReady es = true := by
  induction es generalizing s with
  | nil => rfl
  | cons i es ih =>
    obtain ⟨m, hm, hrest⟩ := runEvents_cons_next h
    rw [contractKept_cons hm]
    exact ih hrest

/-- Settles O42: both directions follow the run event by event, each completed event moving the contract on. -/
theorem runsCompleteExactlyWhereTheBootOrdersAreKept : Obligations.RunsCompleteExactlyWhereTheBootOrdersAreKept :=
  fun _ _ => ⟨fun ⟨_, h⟩ => contractKept_of_runEvents h, runEvents_completes_of_contractKept⟩

/-! ### The ends of the position's range -/

/-- Whichever line falls second, the classifier runs on the pair (low, low) (R80, R81). -/
theorem exec_secondFall {i : Instr} {s : State} {d : DState} {p : Position} (harmed : s.armed = true)
    (hi : i = .edgeA .low ∧ s.lvlB = .low ∨ i = .edgeB .low ∧ s.lvlA = .low)
    (hclass : classify s.params s.dstate .low .low s.pos = (d, p)) :
    ∃ t, exec i s = .next t ∧ t.dstate = d ∧ t.pos = p := by
  obtain ⟨rfl, hB⟩ | ⟨rfl, hA⟩ := hi
  · obtain ⟨hexec, -⟩ := edgeASamplesLineAAndClassifiesOnce .low s
    rw [hB, hclass] at hexec
    exact ⟨_, hexec harmed, rfl, rfl⟩
  · obtain ⟨hexec, -⟩ := edgeBSamplesLineBAndClassifiesOnce .low s
    rw [hA, hclass] at hexec
    exact ⟨_, hexec harmed, rfl, rfl⟩

/-- Settles O8: the second fall is the detent of its arc, and the detent's step is modular. -/
theorem detentsStepThePositionAndWrap : Obligations.DetentsStepThePositionAndWrap := by
  intro s harmed
  refine ⟨fun hcw1 i hi => ?clockwise, fun hccw1 i hi => ?counterClockwise⟩
  case clockwise =>
    obtain ⟨hdetent, -⟩ := clockwiseArcTransitions s.params s.pos
    obtain ⟨t, hexec, hd, hpos⟩ := exec_secondFall harmed hi (by rw [hcw1, hdetent])
    exact ⟨t, hexec, hd, by rw [hpos, toInt_add_one]⟩
  case counterClockwise =>
    obtain ⟨hdetent, -⟩ := counterClockwiseArcTransitions s.params s.pos
    obtain ⟨t, hexec, hd, hpos⟩ := exec_secondFall harmed hi (by rw [hccw1, hdetent])
    exact ⟨t, hexec, hd, by rw [hpos, toInt_sub_one]⟩

/-! ### The half turn and back -/

/-- With both lines low, `IDLE` opens the arc that IDLE_TIE names and counts nothing (R84). -/
theorem classify_idle_bothLow (c : Params) (p : Position) :
    ∃ d, classify c .idle .low .low p = (d, p) ∧ (d = .cw1 ∨ d = .ccw1) := by
  obtain ⟨-, -, -, hccw, hcw⟩ := idleStateTransitions c p
  cases htie : c.idleTie with
  | ccwWins => exact ⟨.ccw1, hccw htie, .inr rfl⟩
  | cwWins => exact ⟨.cw1, hcw htie, .inl rfl⟩

/-- Line B rising with line A low takes the first state of an arc to no detent: it is held or, where GLITCH_GUARD says
so, left for `IDLE` (R85, R88). -/
theorem classify_arcStart_lineB_high {d : DState} (hd : d = .cw1 ∨ d = .ccw1) (c : Params) (p : Position) :
    ∃ d', classify c d .low .high p = (d', p) ∧ (d' = .idle ∨ d' = .cw1 ∨ d' = .ccw1) := by
  obtain rfl | rfl := hd
  · obtain ⟨-, -, -, hheld, hleft, -⟩ := clockwiseArcTransitions c p
    cases hguard : c.glitchGuard with
    | bothHigh => exact ⟨.cw1, hheld hguard, .inr (.inl rfl)⟩
    | leadHigh => exact ⟨.idle, hleft hguard, .inl rfl⟩
  · exact ⟨.ccw1, rfl, .inr (.inr rfl)⟩

/-- Both lines high end an arc that has not reached its detent, and count nothing (R84, R85, R88). -/
theorem classify_bothHigh {d : DState} (hd : d = .idle ∨ d = .cw1 ∨ d = .ccw1) (c : Params) (p : Position) :
    classify c d .high .high p = (.idle, p) := by
  obtain rfl | rfl | rfl := hd
  · rfl
  · rfl
  · rfl

/-- A rotation half way and back counts one and stops in `CW_3` with both lines high (R149). -/
theorem runEvents_halfTurnAndBack {s : State} (harmed : s.armed = true) (hA : s.lvlA = .high) (hB : s.lvlB = .high)
    (hidle : s.dstate = .idle) :
    runEvents [.edgeB .low, .edgeA .low, .edgeA .high, .edgeB .high] s =
      .next { s with dstate := .cw3, pos := s.pos + 1 } := by
  refine runEvents_append_eq_next_iff (es := [.edgeB .low, .edgeA .low]).mpr
    ⟨_, runEvents_fallBThenA harmed hA hidle, ?_⟩
  calc runEvents [.edgeA .high, .edgeB .high] { s with lvlA := .low, lvlB := .low, dstate := .cw2, pos := s.pos + 1 }
      = runEvents [.edgeB .high] { s with lvlA := .high, lvlB := .low, dstate := .cw2, pos := s.pos + 1 } :=
        runEvents_edgeA harmed rfl
    _ = .next { s with lvlA := .high, lvlB := .high, dstate := .cw3, pos := s.pos + 1 } := runEvents_edgeB harmed rfl
    _ = .next { s with dstate := .cw3, pos := s.pos + 1 } := by rw [hA, hB]

/-- From `CW_3` with both lines high a clockwise cycle is not counted: its first edge leaves for `IDLE`, and what the
other three open they close again before a detent (R87, R149). -/
theorem runEvents_cwCycle_of_cw3 {s : State} (harmed : s.armed = true) (hA : s.lvlA = .high) (hB : s.lvlB = .high)
    (hcw3 : s.dstate = .cw3) : runEvents cwCycle s = .next { s with dstate := .idle } := by
  obtain ⟨d, hopen, hd⟩ := classify_idle_bothLow s.params s.pos
  obtain ⟨d', hrise, hd'⟩ := classify_arcStart_lineB_high hd s.params s.pos
  calc runEvents cwCycle s
      = runEvents [.edgeA .low, .edgeB .high, .edgeA .high] { s with lvlB := .low, dstate := .idle } :=
        runEvents_edgeB harmed (by rw [hcw3, hA]; rfl)
    _ = runEvents [.edgeB .high, .edgeA .high] { s with lvlA := .low, lvlB := .low, dstate := d } :=
        runEvents_edgeA harmed hopen
    _ = runEvents [.edgeA .high] { s with lvlA := .low, lvlB := .high, dstate := d' } := runEvents_edgeB harmed hrise
    _ = .next { s with lvlA := .high, lvlB := .high, dstate := .idle } :=
        runEvents_edgeA harmed (classify_bothHigh hd' s.params s.pos)
    _ = .next { s with dstate := .idle } := by rw [hA, hB]

/-- Settles O12: the half turn and back leaves `CW_3`, from where the next cycle is swallowed. -/
theorem halfTurnAndBackSwallowsTheNextCycle : Obligations.HalfTurnAndBackSwallowsTheNextCycle := by
  intro s harmed hA hB hidle
  have hhalf := runEvents_halfTurnAndBack harmed hA hB hidle
  refine ⟨hhalf, runEvents_append_eq_next_iff.mpr ⟨_, hhalf, ?_⟩⟩
  calc runEvents cwCycle { s with dstate := .cw3, pos := s.pos + 1 }
      = .next { s with dstate := .idle, pos := s.pos + 1 } := runEvents_cwCycle_of_cw3 harmed hA hB rfl
    _ = .next { s with pos := s.pos + 1 } := by rw [hidle]

/-! ### The reset state -/

/-- Settles O1: the meaning of RESET has no branch, and the state every run starts in holds the reset values already. -/
theorem resetEventLeavesResetValues : Obligations.ResetEventLeavesResetValues :=
  ⟨fun s => ⟨resetBlock s, rfl, resetBlock_dstate s, resetBlock_pos s, resetBlock_lvlA s, resetBlock_lvlB s,
    resetBlock_armed s, resetBlock_medReady s, resetBlock_pinA s, resetBlock_pinB s, resetBlock_params s,
    fun _ => rfl, fun _ => rfl, resetBlock_input s, resetBlock_responses s, resetBlock_mediumPort s⟩, rfl⟩

/-- Settles O55: the spec's figures are legal, the two pins differ, and the fresh medium and the empty ports break
nothing. -/
theorem theResetStateMeetsTheInvariant : Obligations.TheResetStateMeetsTheInvariant := by
  obtain ⟨hwf, -, hwithin⟩ := Memory.wf_reset
  exact {
    params_legal := by decide
    pins_differ := by decide
    medium_wf := hwf
    medium_within := hwithin
    all_committed := rfl
    responses_legal := rfl
    port_legal := rfl }

end Sys2Proof.Machine
end

section
/-!
Words written out: the fixed words of 95_test_vectors.md section 2.4, and the host's way of placing an opcode-table word
at the head of the event stream (log entry 16).
-/

namespace Sys2Proof.Machine

/-- A word that is the encoding of a well-formed event decodes to it, with no byte left (R60 to R65). -/
theorem decode_of_encode_eq {i : Instr} {word : List Byte} (hi : i.wf = true) (hword : encode i = word) :
    decode word = .event i [] := by
  have h := decodeOfEncodeIsTheEvent i [] hi
  rwa [List.append_nil, hword] at h

/-- Settles O49: each word is the encoding of its event. -/
theorem specWordsDecodeToTheirEvents : Obligations.SpecWordsDecodeToTheirEvents :=
  ⟨decode_of_encode_eq rfl rfl, decode_of_encode_eq rfl rfl, decode_of_encode_eq rfl rfl, decode_of_encode_eq rfl rfl,
    decode_of_encode_eq rfl rfl, decode_of_encode_eq rfl rfl, decode_of_encode_eq rfl rfl, decode_of_encode_eq rfl rfl,
    decode_of_encode_eq rfl rfl, decode_of_encode_eq rfl rfl, decode_of_encode_eq rfl rfl⟩

/-- The length of an event is read from its first two bytes only (R66). -/
theorem eventLength_take_two (bs : List Byte) : eventLength (bs.take 2) = eventLength bs := by
  match bs with
  | [] => rfl
  | [_] => rfl
  | _ :: _ :: _ => rfl

theorem eventLength_of_decode {bs rest : List Byte} {i : Instr} (h : decode bs = .event i rest) :
    eventLength bs = some (encode i).length := by
  rw [← eventLength_take_two]
  exact (eventLengthIsKnownFromItsFirstBytes bs rest i h).1

theorem decodeTableWord_eq_some_iff {nbits w : Nat} {i : Instr} :
    decodeTableWord nbits w = some i ↔ ∃ rest, decode (tableBytes nbits w) = .event i rest := by
  unfold decodeTableWord
  split
  next j rest hdec => simp [hdec]
  next why hdec => simp [hdec]

/-- The bytes placed for a table word are those of the event it decodes to; the zeros above them are cut off. -/
theorem eventBytes_of_decode {nbits w : Nat} {i : Instr} {rest : List Byte}
    (h : decode (tableBytes nbits w) = .event i rest) : eventBytes nbits w = encode i := by
  obtain ⟨-, hbytes⟩ := decodedBytesAreTheEncoding _ _ _ h
  rw [eventBytes, eventLength_of_decode h, hbytes]
  exact List.take_left

/-- Settles O51: the word's bytes at the head of the stream are the event's encoding, and a step runs what is encoded
there on the stream behind it. -/
theorem aTableWordRunsAsTheNextEvent : Obligations.ATableWordRunsAsTheNextEvent := by
  intro nbits w i s hword
  obtain ⟨rest, hdec⟩ := decodeTableWord_eq_some_iff.mp hword
  obtain ⟨hwf, -⟩ := decodedBytesAreTheEncoding _ _ _ hdec
  refine ⟨hwf, ?_⟩
  calc step (s.withFetchWord nbits w)
      = step (s.withInput (encode i ++ s.input)) := by
        rw [State.withFetchWord, putNextEvent, eventBytes_of_decode hdec]
    _ = exec i (s.withInput s.input) := step_encode hwf s.input s
    _ = exec i s := rfl

end Sys2Proof.Machine
end
